-- ==== Sys2Proof/Word.lean ====
section
/-! DEFINITION. The word and byte types, and the two words the spec names.
A word is an unsigned integer in [0, 2^256) (00_scope.md R5); `maxWord` and `minSigned` are R9's
`MaxWord` and `MinSigned`. -/

namespace Sys2Proof

/-- One byte: an opcode, an immediate byte, a scratchpad byte (R5 `OPCODE_BITS`). -/
abbrev Byte := BitVec 8

/-- One 256-bit word, the unit of stack storage (R5 `WORD_BITS`). -/
abbrev Word := BitVec 256

/-- A 64-bit gas register (R5 `GAS_BITS`). -/
abbrev Gas := BitVec 64

/-- R9 `MaxWord` = 2^256 − 1, which reads as −1 when signed. -/
def maxWord : Word := BitVec.ofNat 256 (2 ^ 256 - 1)

/-- R9 `MinSigned` = 2^255, which reads as −2^255 when signed. -/
def minSigned : Word := BitVec.ofNat 256 (2 ^ 255)

end Sys2Proof
end

