-- ==== Sys2Proof/Config.lean ====
section
/-! DEFINITION. What is fixed for one machine: the parameters the spec gives a value (00_scope.md R5), the
parameters it leaves open (R7), and the free values (93_implementation_defined.md I3, I6, I7). -/

namespace Sys2Proof

namespace Config

/-- R5 `STACK_DEPTH`: the stack holds at most 1024 words. -/
def stackDepth : Nat := 1024

/-- R5 `MEM_SIZE_THRESHOLD`: a memory size above it fails GasUintOverflow. -/
def memSizeThreshold : Nat := 0x1FFFFFFFE0

/-- R5 `MEM_GRANULE`: the memory length is a multiple of 32 bytes. -/
def memGranule : Nat := 32

/-- R5 `PUSH_MAX_BYTES`: the longest immediate. -/
def pushMaxBytes : Nat := 32

/-- R80: the longest instruction, PUSH32, is 33 bytes. -/
def maxInstrBytes : Nat := 33

/-- R7 `DIGEST`, I3: the function applied to the final memory bytes. The source names no algorithm, so it has no
body here, and whatever is proved of the machine holds for every digest function (log entry 3). -/
opaque digest : List Byte → Word

/-- I6: the value of a code byte below `CODE_LEN` that the host never loaded, "a draw per byte, fixed for the
run". The first argument is the draw number `State.draw` holds during the run, the second the address
(log entry 6). -/
opaque freeCodeByte : Nat → Nat → Byte

/-- I7: what `DIGEST_OUT` holds from a start until the run halts, "any value"; the argument is the draw number
(log entry 5). -/
opaque freeDigestOut : Nat → Word

end Config

/-- The open parameters of R7 that are plain data. `none` stands for "unbounded", the reference value of
`CODE_BYTES_MAX` and of `PC_BITS` (92_eei_decisions.md, "Open parameters, gathered"). -/
structure Params where
  /-- `CODE_BYTES_MAX`: capacity of the code space in bytes. -/
  codeBytesMax : Option Nat
  /-- `PC_BITS`: width of the `pc` and `CODE_LEN` registers. -/
  pcBits : Option Nat
  /-- `MEM_BYTES_MAX`: physical capacity of the scratchpad in bytes. -/
  memBytesMax : Nat
  deriving DecidableEq, Repr

namespace Params

/-- The reference values of 92_eei_decisions.md. -/
def reference : Params :=
  { codeBytesMax := none, pcBits := none, memBytesMax := Config.memSizeThreshold }

/-- A code address or a code length `n` within `CODE_BYTES_MAX`. -/
def admitsCodeLen (p : Params) (n : Nat) : Bool :=
  match p.codeBytesMax with
  | none => true
  | some m => n ≤ m

/-- R7's constraints: `PC_BITS` holds `CODE_BYTES_MAX`, and `MEM_BYTES_MAX` is a multiple of 32 of at most
0x1FFFFFFFE0. -/
def wellFormed (p : Params) : Bool :=
  (match p.codeBytesMax, p.pcBits with
    | _, none => true
    | none, some _ => false
    | some m, some b => m < 2 ^ b) &&
  (p.memBytesMax % Config.memGranule == 0) && (p.memBytesMax ≤ Config.memSizeThreshold)

end Params

end Sys2Proof
end

