-- ==== Sys2Proof/Syntax.lean ====
section
/-! DEFINITION. The ten instructions (30_encoding.md R84), one constructor for each row of the opcode table. -/

namespace Sys2Proof

/-- An instruction: one opcode byte, and for PUSHn an n-byte immediate (R80 to R82). Every other operand comes
from the stack (10_state.md R38). The immediate is held as the word it stands for, the zero-extended big-endian
value of R83; that it fits in n bytes is `Instr.WellFormed`. -/
inductive Instr where
  /-- 0x01, R133. -/
  | add
  /-- 0x02, R134. -/
  | mul
  /-- 0x05, R135. -/
  | sdiv
  /-- 0x0a, R136. -/
  | exp
  /-- 0x52, R160. -/
  | mstore
  /-- 0x53, R161. -/
  | mstore8
  /-- 0x60, R151. -/
  | push1 (imm : Word)
  /-- 0x61, R152. -/
  | push2 (imm : Word)
  /-- 0x62, R153. -/
  | push3 (imm : Word)
  /-- 0x7f, R154. -/
  | push32 (imm : Word)
  deriving DecidableEq, Repr

end Sys2Proof
end

