-- ==== Sys2Proof/WellFormed.lean ====
section
/-! DEFINITION. When an instruction is well formed: a PUSHn immediate fits in n bytes (30_encoding.md R90: "An
operand that does not fit in n bytes is an assembly error"). -/

namespace Sys2Proof

/-- The value of an n-byte immediate is below 256^n (R82, R90). Any word is a PUSH32 immediate. -/
def Instr.wellFormed : Instr → Bool
  | .add => true
  | .mul => true
  | .sdiv => true
  | .exp => true
  | .mstore => true
  | .mstore8 => true
  | .push1 imm => imm.toNat < 256 ^ 1
  | .push2 imm => imm.toNat < 256 ^ 2
  | .push3 imm => imm.toNat < 256 ^ 3
  | .push32 _ => true

end Sys2Proof
end

