-- ==== Sys2Proof/Decode.lean ====
section
/-! DEFINITION. The decoder ROM (30_encoding.md R84), the decoder, total on any bytes, and the encoder, each
written from R80 to R89. -/

namespace Sys2Proof

/-- Which dynamic-gas function a ROM entry has (R84, R85). -/
inductive DynamicGas where
  | none
  /-- `expGasCost`, 40_execution_cycle.md R114. -/
  | exp
  /-- `memoryExpansionCost(writeSize)`, R112. -/
  | memory (writeSize : Nat)
  deriving DecidableEq, Repr

/-- One populated entry of the decoder ROM (R84, R85). The handler is the instruction's meaning under Machine/. -/
structure RomEntry where
  opcode : Byte
  /-- "opcode name (diagnostic only)" -/
  mnemonic : String
  /-- bytes of the whole instruction -/
  length : Nat
  constantGas : Nat
  dynamicGas : DynamicGas
  deriving DecidableEq, Repr

def romAdd : RomEntry := ⟨0x01, "ADD", 1, 3, .none⟩
def romMul : RomEntry := ⟨0x02, "MUL", 1, 5, .none⟩
def romSdiv : RomEntry := ⟨0x05, "SDIV", 1, 5, .none⟩
def romExp : RomEntry := ⟨0x0a, "EXP", 1, 10, .exp⟩
def romMstore : RomEntry := ⟨0x52, "MSTORE", 1, 3, .memory 32⟩
def romMstore8 : RomEntry := ⟨0x53, "MSTORE8", 1, 3, .memory 1⟩
def romPush1 : RomEntry := ⟨0x60, "PUSH1", 2, 3, .none⟩
def romPush2 : RomEntry := ⟨0x61, "PUSH2", 3, 3, .none⟩
def romPush3 : RomEntry := ⟨0x62, "PUSH3", 4, 3, .none⟩
def romPush32 : RomEntry := ⟨0x7f, "PUSH32", 33, 3, .none⟩

/-- The populated entries of R84's table, in its order. -/
def romTable : List RomEntry :=
  [romAdd, romMul, romSdiv, romExp, romMstore, romMstore8, romPush1, romPush2, romPush3, romPush32]

/-- R84: the table is indexed by the opcode byte; `none` is an unpopulated entry. -/
def rom (op : Byte) : Option RomEntry :=
  romTable.find? (fun e => e.opcode == op)

/-- The ROM entry of an instruction. -/
def romOf : Instr → RomEntry
  | .add => romAdd
  | .mul => romMul
  | .sdiv => romSdiv
  | .exp => romExp
  | .mstore => romMstore
  | .mstore8 => romMstore8
  | .push1 _ => romPush1
  | .push2 _ => romPush2
  | .push3 _ => romPush3
  | .push32 _ => romPush32

/-- R83: the number a byte sequence stands for, the first byte most significant. -/
def natOfBytes (bs : List Byte) : Nat :=
  bs.foldl (fun acc b => acc * 256 + b.toNat) 0

/-- R137 `wordFromBytes`: big-endian, left zero-padded; `none` is the "Overflow condition" of more than 32
significant bytes. -/
def wordFromBytes (bs : List Byte) : Option Word :=
  if Config.pushMaxBytes < (bs.dropWhile (fun b => b == 0)).length then none
  else some (BitVec.ofNat 256 (natOfBytes bs))

/-- The n-byte big-endian encoding of a number (R61, R82): its low n bytes, most significant first. -/
def bytesOfNat : Nat → Nat → List Byte
  | 0, _ => []
  | n + 1, v => BitVec.ofNat 8 (v / 256 ^ n) :: bytesOfNat n v

/-- Why bytes do not decode. -/
inductive DecodeError where
  /-- There is no byte to decode. -/
  | noByte
  /-- R86: the opcode byte has no ROM entry. -/
  | invalidOpcode (op : Byte)
  /-- R89: fewer immediate bytes follow than the PUSH of this ROM entry takes. -/
  | truncated (row : RomEntry)
  /-- R137's Overflow condition; no immediate of at most 32 bytes meets it (R178). -/
  | overflow
  deriving DecidableEq, Repr

/-- The immediate of a PUSH whose ROM entry is `row` (R82): the `row.length − 1` bytes after the opcode. -/
def decodePush (row : RomEntry) (make : Word → Instr) (rest : List Byte) :
    Except DecodeError (Instr × List Byte) :=
  if rest.length < row.length - 1 then .error (.truncated row)
  else
    match wordFromBytes (rest.take (row.length - 1)) with
    | some imm => .ok (make imm, rest.drop (row.length - 1))
    | none => .error .overflow

/-- R84 to R88: the instruction at the head of a byte sequence and the bytes after it. Every opcode byte outside
R84's table is invalid (R86). -/
def decode : List Byte → Except DecodeError (Instr × List Byte)
  | [] => .error .noByte
  | op :: rest =>
    match op.toNat with
    | 0x01 => .ok (.add, rest)
    | 0x02 => .ok (.mul, rest)
    | 0x05 => .ok (.sdiv, rest)
    | 0x0a => .ok (.exp, rest)
    | 0x52 => .ok (.mstore, rest)
    | 0x53 => .ok (.mstore8, rest)
    | 0x60 => decodePush romPush1 .push1 rest
    | 0x61 => decodePush romPush2 .push2 rest
    | 0x62 => decodePush romPush3 .push3 rest
    | 0x7f => decodePush romPush32 .push32 rest
    | _ => .error (.invalidOpcode op)

/-- R81, R82: the bytes of an instruction: the opcode, then the immediate as exactly n big-endian bytes. -/
def encode : Instr → List Byte
  | .add => [0x01]
  | .mul => [0x02]
  | .sdiv => [0x05]
  | .exp => [0x0a]
  | .mstore => [0x52]
  | .mstore8 => [0x53]
  | .push1 imm => 0x60 :: bytesOfNat 1 imm.toNat
  | .push2 imm => 0x61 :: bytesOfNat 2 imm.toNat
  | .push3 imm => 0x62 :: bytesOfNat 3 imm.toNat
  | .push32 imm => 0x7f :: bytesOfNat 32 imm.toNat

/-- The bytes of an opcode-table word: byte k is bits 8k+7..8k, the bits at and above `nbits` are 0, and the
sequence is as long as the longest instruction. -/
def tableBytes (nbits w : Nat) : List Byte :=
  (List.range Config.maxInstrBytes).map (fun k =>
    if 8 * k < nbits then BitVec.ofNat 8 (w / 256 ^ k) else 0)

/-- The instruction the decoder reads from a word of the opcode table. -/
def decodeTableWord (nbits w : Nat) : Option Instr :=
  match decode (tableBytes nbits w) with
  | .ok (i, _) => some i
  | .error _ => none

end Sys2Proof
end

