-- ==== Sys2Proof/Machine/State.lean ====
section
/-! DEFINITION. The state of the block as plain data (10_state.md R20, R39), its reset value (R40), and the
reasons a step can stop other than by the spec's own error halt. -/

namespace Sys2Proof.Machine

/-- `STATE`, the sequencer's state (R35). -/
inductive Seq where
  /-- reset done; no run started -/
  | idle
  /-- a run is in progress -/
  | running
  /-- the run ended at the end of the code -/
  | haltedSuccess
  /-- the run ended with the error in `ERR_KIND` -/
  | haltedError
  deriving DecidableEq, Repr

/-- `ERR_KIND` (R36, R170). -/
inductive ErrKind where
  | none
  | stackOverflow
  | stackUnderflow
  | gasUintOverflow
  | outOfGas
  | invalidOpcode
  | notEnoughBytesToRead
  | capacityExceeded
  deriving DecidableEq, Repr

/-- An error with the value it carries (R170): what a stage raises. -/
inductive Err where
  | stackOverflow
  | stackUnderflow
  | gasUintOverflow
  | outOfGas
  | invalidOpcode (byte : Byte)
  | notEnoughBytesToRead (opcode : Byte)
  | capacityExceeded
  deriving DecidableEq, Repr

/-- The whole state. `STACK_SIZE` is the length of `stack`, `MemLen` is 32 times `memWords`, and `START` is a
strobe that holds nothing (R39), so none of the three is stored. -/
structure State where
  /-- the open parameters of R7, fixed for the machine; no step and no host action writes them -/
  params : Params
  /-- `Code`: the bytes the host loaded, by address, strictly rising; an address that is not listed was never
  loaded (R21, R51, I6) -/
  code : List Host.Cell
  /-- `CODE_LEN` (R21) -/
  codeLen : Nat
  /-- `pc` (R22) -/
  pc : Nat
  /-- `OPCODE` (R23) -/
  opcode : Byte
  /-- `Stack`, top first (R24) -/
  stack : List Word
  /-- `MEM_WORDS` (R29, R57) -/
  memWords : BitVec 32
  /-- `Mem`: the scratchpad bytes that are not 0x00, by address, strictly rising (R29, R52) -/
  mem : List Host.Cell
  /-- `GAS_LIMIT` (R30) -/
  gasLimit : Gas
  /-- `GAS_REMAINING` (R31) -/
  gasRemaining : Gas
  /-- `GAS_CONSUMED` (R32) -/
  gasConsumed : Gas
  /-- `MEM_COST_WM` (R34) -/
  memCostWm : BitVec 64
  /-- `STATE` (R35) -/
  seq : Seq
  /-- `ERR_KIND` (R36) -/
  errKind : ErrKind
  /-- `ERR_OPCODE` (R36) -/
  errOpcode : Byte
  /-- `DIGEST_OUT` (R39, R110) -/
  digestOut : Word
  /-- The MODEL's own field: the number of the free-value draw the run uses (I6, I7; log entry 6). A start and a
  reset each advance it. -/
  draw : Nat
  deriving DecidableEq, Repr

/-- The two failures the source names that no run can reach (R178, I12). Stopping there is safe. -/
inductive Fault where
  /-- R137: a byte sequence of more than 32 significant bytes is converted to a word. Raised by
  `decodeFailure`; no step reaches it. Safe. -/
  | conversionOverflow
  /-- R58: the memory controller is asked for a size whose word count does not fit its 32-bit register. Raised by
  `extend`; no step reaches it. Safe. -/
  | memorySizeOverflow
  deriving DecidableEq, Repr

/-- What the model gives no meaning to. -/
inductive Refusal where
  /-- An instruction with no meaning yet: raised by an arm of `exec`, and no arm of this model does. Safe. -/
  | notModelled (mnemonic : String)
  /-- R188, I8: the host gives the block a `CODE_LEN` above `CODE_BYTES_MAX`, or loads a byte at an address the
  code space does not have: "the block has no meaning for it". Raised by `hostAct` alone; no step raises it. Safe. -/
  | codeTooLong
  deriving DecidableEq, Repr

/-- R40: the reset values, for a machine with parameters `p` and free-value draw `d`. The spec leaves
`DIGEST_OUT` unspecified at reset; zero is the model's choice (log entry 4). -/
def State.resetWith (p : Params) (d : Nat) : State :=
  { params := p
    code := []
    codeLen := 0
    pc := 0
    opcode := 0
    stack := []
    memWords := 0
    mem := []
    gasLimit := 0
    gasRemaining := 0
    gasConsumed := 0
    memCostWm := 0
    seq := .idle
    errKind := .none
    errOpcode := 0
    digestOut := 0
    draw := d }

/-- The machine right after reset (R40, R200), with the reference parameters (log entry 1). -/
def State.reset : State := State.resetWith Params.reference 0

end Sys2Proof.Machine
end

