-- ==== Sys2Proof/Machine/Flags.lean ====
section
/-! DEFINITION. The block has no status flags and no condition codes: no instruction sets or reads one (10_state.md
R37). What software outside can read of the run's status is `STATE`, `ERR_KIND` and `ERR_OPCODE`; this file gives
their encodings. -/

namespace Sys2Proof.Machine

/-- R35: the two bits of `STATE`. -/
def Seq.code : Seq → BitVec 2
  | .idle => 0
  | .running => 1
  | .haltedSuccess => 2
  | .haltedError => 3

/-- R170: the three bits of `ERR_KIND`. -/
def ErrKind.code : ErrKind → BitVec 3
  | .none => 0
  | .stackOverflow => 1
  | .stackUnderflow => 2
  | .gasUintOverflow => 3
  | .outOfGas => 4
  | .invalidOpcode => 5
  | .notEnoughBytesToRead => 6
  | .capacityExceeded => 7

/-- R170: the `ERR_KIND` an error records. -/
def Err.kind : Err → ErrKind
  | .stackOverflow => .stackOverflow
  | .stackUnderflow => .stackUnderflow
  | .gasUintOverflow => .gasUintOverflow
  | .outOfGas => .outOfGas
  | .invalidOpcode _ => .invalidOpcode
  | .notEnoughBytesToRead _ => .notEnoughBytesToRead
  | .capacityExceeded => .capacityExceeded

/-- R36, R170: the `ERR_OPCODE` an error records: the byte InvalidOpcode and NotEnoughBytesToRead carry, 0 for
every other error. -/
def Err.info : Err → Byte
  | .invalidOpcode byte => byte
  | .notEnoughBytesToRead opcode => opcode
  | .stackOverflow => 0
  | .stackUnderflow => 0
  | .gasUintOverflow => 0
  | .outOfGas => 0
  | .capacityExceeded => 0

end Sys2Proof.Machine
end

