-- ==== Sys2Proof/Machine/Operands.lean ====
section
/-! DEFINITION. What the arithmetic unit computes (41_alu.md) and the rounding of byte counts (20_memory.md R53).
Every operand is a stack word or an immediate; the spec has no other operand form (10_state.md R38). -/

namespace Sys2Proof.Machine

/-- R9 `signed(w)`: the two's-complement reading of a word. -/
def signed (w : Word) : Int :=
  if w.toNat < 2 ^ 255 then (w.toNat : Int) else (w.toNat : Int) - 2 ^ 256

/-- R8 `u256(i)`: `i mod 2^256`. -/
def u256 (i : Int) : Word := BitVec.ofInt 256 i

/-- R133: `u256(A + B)`. -/
def addWords (a b : Word) : Word := BitVec.ofNat 256 (a.toNat + b.toNat)

/-- R134: `u256(A × B)`, the low 256 bits of the product. -/
def mulWords (a b : Word) : Word := BitVec.ofNat 256 (a.toNat * b.toNat)

/-- R135: the quotient of the magnitudes, rounded down. -/
def quotientMagnitude (a b : Word) : Nat := (signed a).natAbs / (signed b).natAbs

/-- R135: signed division, 0 for a zero divisor, the quotient rounded toward zero (92_eei_decisions.md D6; log
entry 12). -/
def sdivWords (a b : Word) : Word :=
  if b = 0 then 0
  else if (signed a < 0) ≠ (signed b < 0) then u256 (-(quotientMagnitude a b : Int))
  else u256 (quotientMagnitude a b : Int)

/-- R136's "repeated-squaring style" power modulo 2^256, at most one squaring for each unit of fuel. -/
def powMod : Nat → Nat → Nat → Nat
  | 0, _, _ => 1
  | fuel + 1, base, e =>
    if e = 0 then 1
    else
      let half := powMod fuel base (e / 2)
      if e % 2 = 1 then half * half % 2 ^ 256 * base % 2 ^ 256
      else half * half % 2 ^ 256

/-- R136: `A^B mod 2^256`, with `A^0 = 1` for every A (92_eei_decisions.md D7; log entry 13). An exponent has 256
bits, so 256 units of fuel are enough. -/
def expWords (a b : Word) : Word := BitVec.ofNat 256 (powMod 256 a.toNat b.toNat)

/-- R131 `bitlen(v)`. -/
def bitLen (v : Word) : Nat := if v.toNat = 0 then 0 else Nat.log2 v.toNat + 1

/-- R131 `byteLength(v)`: the bytes needed to write v with no leading zero byte. -/
def byteLength (v : Word) : Nat := (bitLen v + 7) / 8

/-- R53 `ceil32(x)`: the least multiple of 32 that is at least x. -/
def ceil32 (x : Nat) : Nat := (x + 31) / 32 * 32

/-- R112: the memory cost of `w` words, `3·w + w² // 512`. -/
def memCost (w : Nat) : Nat := 3 * w + w * w / 512

/-- R55: byte `i` of a stored word, `w[255 − 8·i : 248 − 8·i]`; byte 0 is the most significant. -/
def wordByte (w : Word) (i : Nat) : Byte := BitVec.ofNat 8 (w.toNat / 256 ^ (31 - i))

/-- R61: the 32-byte big-endian encoding of a word. -/
def wordBytes (w : Word) : List Byte := (List.range 32).map (wordByte w)

/-- R161: `value[7:0]`, the byte MSTORE8 stores. -/
def lowByte (w : Word) : Byte := BitVec.ofNat 8 w.toNat

end Sys2Proof.Machine
end

