-- ==== Sys2Proof/Machine/Ops.lean ====
section
/-! DEFINITION. The named operations over the code space, the stack, the scratchpad memory and the run registers
that the meanings share, and taking an error (60_exceptions.md R179). The block has no return from an error: "There is
no trap return, no resumption and no nesting" (R184). -/

namespace Sys2Proof.Machine

/-! ### Updates of the state, one name each -/

/-- Stage 1 latches the fetched byte (R102). -/
def State.setOpcode (s : State) (op : Byte) : State := { s with opcode := op }

/-- `pc <- v` (R12). -/
def State.setPc (s : State) (v : Nat) : State := { s with pc := v }

/-- Replaces the stack, top first. -/
def State.setStack (s : State) (st : List Word) : State := { s with stack := st }

/-- Writes the two gas counters. -/
def State.setGas (s : State) (remaining consumed : Gas) : State :=
  { s with gasRemaining := remaining, gasConsumed := consumed }

/-- Writes `MEM_COST_WM`. -/
def State.setWatermark (s : State) (wm : BitVec 64) : State := { s with memCostWm := wm }

/-- Replaces the scratchpad: its length in words and its bytes. -/
def State.setMemory (s : State) (words : BitVec 32) (cells : List Host.Cell) : State :=
  { s with memWords := words, mem := cells }

/-- Writes `STATE`, `ERR_KIND` and `ERR_OPCODE`. -/
def State.setSeq (s : State) (q : Seq) (kind : ErrKind) (info : Byte) : State :=
  { s with seq := q, errKind := kind, errOpcode := info }

/-- Writes `DIGEST_OUT`. -/
def State.setDigest (s : State) (d : Word) : State := { s with digestOut := d }

/-! ### Bytes held by address -/

/-- The byte listed at an address. -/
def lookupCell : List Host.Cell → Nat → Option Byte
  | [], _ => none
  | (k, b) :: rest, a => if k = a then some b else lookupCell rest a

/-- Lists a byte at an address, in the place of the byte listed there before; keeps the addresses rising. -/
def insertCell (a : Nat) (b : Byte) : List Host.Cell → List Host.Cell
  | [] => [(a, b)]
  | (k, c) :: rest =>
    if a < k then (a, b) :: (k, c) :: rest
    else if k = a then (a, b) :: rest
    else (k, c) :: insertCell a b rest

/-- What the scratchpad holds at an address of the memory: the listed byte, or 0x00 where none is listed (R54:
"every added byte reads 0x00 until a write changes it"). -/
def readCell (cells : List Host.Cell) (a : Nat) : Byte := (lookupCell cells a).getD 0

/-- A scratchpad byte write. Writing 0x00, which an unlisted address reads as, takes the entry out. -/
def writeCell (cells : List Host.Cell) (a : Nat) (b : Byte) : List Host.Cell :=
  if b = 0 then cells.filter (fun c => c.1 ≠ a) else insertCell a b cells

/-- Writes a byte sequence, its first byte at the lowest address. -/
def writeCells (cells : List Host.Cell) (a : Nat) : List Byte → List Host.Cell
  | [] => cells
  | b :: rest => writeCells (writeCell cells a b) (a + 1) rest

/-- The addresses of a byte list rise strictly. -/
abbrev Rising (cells : List Host.Cell) : Prop := cells.Pairwise (fun x y => x.1 < y.1)

/-- The canonical form of the scratchpad: rising addresses, and no byte listed that an unlisted address reads as. -/
abbrev Memory.wf (cells : List Host.Cell) : Prop := Rising cells ∧ ∀ c ∈ cells, c.2 ≠ 0

/-! ### Code space -/

/-- R51 `Code[i]`: the byte the host loaded at address i, or the run's free value where it loaded none (I6). -/
def codeAt (s : State) (i : Nat) : Byte :=
  (lookupCell s.code i).getD (Config.freeCodeByte s.draw i)

/-- The code bytes from `pc` on that an instruction can take up: at most 33, and none at or past `CODE_LEN`
(R51, R80). -/
def fetchWindow (s : State) : List Byte :=
  (List.range (min Config.maxInstrBytes (s.codeLen - s.pc))).map (fun k => codeAt s (s.pc + k))

/-! ### Stack primitives (R25 to R27) -/

/-- R25 `push(w)`. -/
def push (w : Word) (s : State) : Except Err State :=
  if Config.stackDepth ≤ s.stack.length then .error .stackOverflow
  else .ok (s.setStack (w :: s.stack))

/-- R26 `pop()`. -/
def pop (s : State) : Except Err (Word × State) :=
  match s.stack with
  | [] => .error .stackUnderflow
  | w :: rest => .ok (w, s.setStack rest)

/-- R27 `peek(n)`; `peek(0)` is the top. -/
def peek (n : Nat) (s : State) : Except Err Word :=
  match s.stack[n]? with
  | none => .error .stackUnderflow
  | some w => .ok w

/-! ### Scratchpad memory controller (R52 to R57) -/

/-- R57 `byteLength()`, R29 `MemLen`. -/
def memLen (s : State) : Nat := 32 * s.memWords.toNat

/-- R11, R74 `MemRead(a, 1)`: the memory byte at an address, `none` at or above `MemLen`, where "No byte … exists
for any rule" (R29). -/
def readByte (s : State) (a : Nat) : Option Byte :=
  if a < memLen s then some (readCell s.mem a) else none

/-- R74: the memory bytes in address order, the input of the digest. -/
def memBytes (s : State) : List Byte := (List.range (memLen s)).map (readCell s.mem)

/-- Why a handler ends without its effect: an error the run halts with, or one of the two failures no run
reaches (R178). -/
inductive Stop where
  | raised (e : Err)
  | rejected (f : Fault)
  deriving DecidableEq, Repr

/-- R54 `extend(size)`. Added bytes read 0x00, so what is listed at or above the old `MemLen` is dropped. -/
def extend (size : Nat) (s : State) : Except Stop State :=
  if ceil32 size ≤ memLen s then .ok s
  else if s.params.memBytesMax < ceil32 size then .error (.raised .capacityExceeded)
  else if 2 ^ 32 ≤ ceil32 size / 32 then .error (.rejected .memorySizeOverflow)
  else .ok (s.setMemory (BitVec.ofNat 32 (ceil32 size / 32)) (s.mem.filter (fun c => c.1 < memLen s)))

/-- R55, R56 `MemWrite`: extends to cover the bytes, then writes them, the first at the lowest address. -/
def memWrite (offset : Nat) (bs : List Byte) (s : State) : Except Stop State :=
  match extend (offset + bs.length) s with
  | .error e => .error e
  | .ok t => .ok (t.setMemory t.memWords (writeCells t.mem offset bs))

/-! ### The end of a run -/

/-- R110 `finalize()`. -/
def finalize (s : State) : State := s.setDigest (Config.digest (memBytes s))

/-- R108: the successful halt. -/
def finishRun (s : State) : State := finalize (s.setSeq .haltedSuccess s.errKind s.errOpcode)

/-- R179, R109: taking an error. `STATE`, `ERR_KIND` and `ERR_OPCODE` are written and the result is finalized;
nothing else changes. -/
def raise (e : Err) (s : State) : State := finalize (s.setSeq .haltedError e.kind e.info)

end Sys2Proof.Machine
end

