-- ==== Sys2Proof/Machine/HostPort.lean ====
section
/-! DEFINITION. The host interface (10_state.md R39, 60_exceptions.md R188 to R190, 70_reset_and_hazards.md R200 to
R204): what the host can do to the block between two steps, and what it can read. -/

namespace Sys2Proof.Machine

/-- R202 `start()`: fresh run state; `Code`, `CODE_LEN` and `GAS_LIMIT` keep what the host last wrote. `DIGEST_OUT`
becomes invalid: the next draw's free value (I7; log entry 5). -/
def start (s : State) : State :=
  { s with
    pc := 0
    opcode := 0
    stack := []
    memWords := 0
    mem := []
    gasRemaining := s.gasLimit
    gasConsumed := 0
    memCostWm := 0
    errKind := .none
    errOpcode := 0
    digestOut := Config.freeDigestOut (s.draw + 1)
    seq := .running
    draw := s.draw + 1 }

/-- R200, R201: the reset input. The parameters are the machine's own, and the next draw of free values begins. -/
def hardReset (s : State) : State := State.resetWith s.params (s.draw + 1)

/-- The host's actions: the writes of R39's register map, and the reset input. -/
inductive HostAct where
  /-- the code load port: one byte at one address -/
  | loadCode (addr : Nat) (byte : Byte)
  | writeCodeLen (n : Nat)
  | writeGasLimit (limit : Gas)
  /-- a write of the bit to `START` -/
  | writeStart (bit : Bool)
  | reset
  deriving DecidableEq, Repr

/-- R39, R188, R190: what a host action does. While a run is in progress the block ignores every write, and only
reset acts. Code past `CODE_BYTES_MAX` is refused (R188, I8). -/
def hostAct (a : HostAct) (s : State) : Host.Outcome State Fault Refusal :=
  match a with
  | .reset => .next (hardReset s)
  | .loadCode addr byte =>
    if s.seq = .running then .next s
    else if s.params.admitsCodeLen (addr + 1) then
      .next { s with code := insertCell addr byte s.code }
    else .refused .codeTooLong
  | .writeCodeLen n =>
    if s.seq = .running then .next s
    else if s.params.admitsCodeLen n then .next { s with codeLen := n }
    else .refused .codeTooLong
  | .writeGasLimit limit =>
    if s.seq = .running then .next s else .next { s with gasLimit := limit }
  | .writeStart bit =>
    if s.seq = .running then .next s
    else if bit then .next (start s)
    else .next s

/-- Host actions in order, ending at the first refusal. -/
def hostActs : List HostAct → State → Host.Outcome State Fault Refusal
  | [], s => .next s
  | a :: rest, s =>
    match hostAct a s with
    | .next t => hostActs rest t
    | .fault f => .fault f
    | .refused r => .refused r

/-- The load-port writes that place a byte sequence from an address on. -/
def loadActs : Nat → List Byte → List HostAct
  | _, [] => []
  | a, b :: rest => .loadCode a b :: loadActs (a + 1) rest

/-- R188, R204: the launch of a program: its bytes, their count, the gas limit, then `START`. -/
def launchActs (code : List Byte) (limit : Gas) : List HostAct :=
  loadActs 0 code ++ [.writeCodeLen code.length, .writeGasLimit limit, .writeStart true]

/-- The registers of R39's map. -/
inductive HostReg where
  | codeLen
  | gasLimit
  | start
  | state
  | errKind
  | errOpcode
  | pc
  | opcode
  | stackSize
  | memWords
  | gasRemaining
  | gasConsumed
  | memCostWm
  | digestOut
  deriving DecidableEq, Repr

/-- R39: what the host reads in a register. `START` reads as 0. `DIGEST_OUT` is meaningful in the two halted
states only. -/
def hostReadReg (r : HostReg) (s : State) : Nat :=
  match r with
  | .codeLen => s.codeLen
  | .gasLimit => s.gasLimit.toNat
  | .start => 0
  | .state => s.seq.code.toNat
  | .errKind => s.errKind.code.toNat
  | .errOpcode => s.errOpcode.toNat
  | .pc => s.pc
  | .opcode => s.opcode.toNat
  | .stackSize => s.stack.length
  | .memWords => s.memWords.toNat
  | .gasRemaining => s.gasRemaining.toNat
  | .gasConsumed => s.gasConsumed.toNat
  | .memCostWm => s.memCostWm.toNat
  | .digestOut => s.digestOut.toNat

/-- R39: `Code[i]` for i below `CODE_LEN`. -/
def hostReadCode (i : Nat) (s : State) : Option Byte :=
  if i < s.codeLen then some (codeAt s i) else none

/-- R39, R190: the stack read-out port; index 0 is the bottom, and it returns nothing during a run. -/
def hostReadStack (i : Nat) (s : State) : Option Word :=
  if s.seq = .running then none else s.stack.reverse[i]?

/-- R39, R74, R190: the memory read-out port; it returns nothing during a run. -/
def hostReadMem (a : Nat) (s : State) : Option Byte :=
  if s.seq = .running then none else readByte s a

/-- R189: the result fields the source lists. -/
structure Result where
  digest : Word
  consumedGas : Gas
  gasRefund : Gas
  error : Option (ErrKind × Byte)
  deriving DecidableEq, Repr

/-- R189: the result of a halted run; none before a halt. -/
def result (s : State) : Option Result :=
  match s.seq with
  | .haltedSuccess => some ⟨s.digestOut, s.gasConsumed, s.gasRemaining, none⟩
  | .haltedError => some ⟨s.digestOut, s.gasConsumed, s.gasRemaining, some (s.errKind, s.errOpcode)⟩
  | .idle => none
  | .running => none

/-- Places bytes in the code space from an address on. -/
def insertCells (cells : List Host.Cell) (a : Nat) : List Byte → List Host.Cell
  | [] => cells
  | b :: rest => insertCells (insertCell a b cells) (a + 1) rest

/-- A state with the bytes placed where the next fetch reads, and `CODE_LEN` long enough to hold them. -/
def placeCode (s : State) (bs : List Byte) : State :=
  { s with
    code := insertCells s.code s.pc bs
    codeLen := max s.codeLen (s.pc + bs.length) }

/-- A state in which a run is in progress: `s` itself, or, where none is, `s` started with the largest gas limit
(log entry 10). -/
def ensureRunning (s : State) : State :=
  if s.seq = .running then s else start { s with gasLimit := BitVec.allOnes 64 }

end Sys2Proof.Machine
end

