-- ==== Sys2Proof/Machine/Cycle.lean ====
section
/-! DEFINITION. The common frame of every instruction (40_execution_cycle.md): the gas-cost functions, the limit
checker, and the stages of one step. -/

namespace Sys2Proof.Machine

/-- What a dynamic-gas function answers: the gas, and the one register it may write, `MEM_COST_WM` (R111). -/
structure DynGas where
  cost : Nat
  watermark : BitVec 64
  deriving DecidableEq, Repr

/-- R104: an entry with no dynamic-gas function has `dyn = 0`. -/
def noDynamicGas (s : State) : Except Err DynGas := .ok { cost := 0, watermark := s.memCostWm }

/-- R114 `expGasCost()`. -/
def expGasCost (s : State) : Except Err DynGas :=
  match peek 1 s with
  | .error e => .error e
  | .ok e => .ok { cost := 50 * byteLength e, watermark := s.memCostWm }

/-- R112 `memoryExpansionCost(writeSize)`: the stack read, then the threshold, then the comparison with
`MemLen`. -/
def memoryExpansionCost (writeSize : Nat) (s : State) : Except Err DynGas :=
  match peek 0 s with
  | .error e => .error e
  | .ok offset =>
    if Config.memSizeThreshold < ceil32 (offset.toNat + writeSize) then .error .gasUintOverflow
    else if ceil32 (offset.toNat + writeSize) ≤ memLen s then
      .ok { cost := 0, watermark := s.memCostWm }
    else
      .ok { cost := memCost (ceil32 (offset.toNat + writeSize) / 32) - s.memCostWm.toNat
            watermark := BitVec.ofNat 64 (memCost (ceil32 (offset.toNat + writeSize) / 32)) }

/-- R84, R85: the dynamic-gas function of a ROM entry. -/
def dynamicGas : DynamicGas → State → Except Err DynGas
  | .none, s => noDynamicGas s
  | .exp, s => expGasCost s
  | .memory writeSize, s => memoryExpansionCost writeSize s

/-- R105 `gas charge`: the limit check, then the whole sum deducted at once. -/
def charge (cost : Nat) (s : State) : Except Err State :=
  if s.gasRemaining.toNat < cost then .error .outOfGas
  else .ok (s.setGas (s.gasRemaining - BitVec.ofNat 64 cost) (s.gasConsumed + BitVec.ofNat 64 cost))

/-- Stages 1 and 2 of a valid opcode: `OPCODE` latched and `pc` advanced by 1 (R102, R103). -/
def advance (row : RomEntry) (s : State) : State := (s.setOpcode row.opcode).setPc (s.pc + 1)

/-- Stage 5 (R106): the handler runs; if it raises, the state is that of the end of stage 4, halted with the
error. -/
def runHandler (handler : State → Except Stop State) (s : State) : Host.Outcome State Fault Refusal :=
  match handler s with
  | .ok t => .next t
  | .error (.raised e) => .next (raise e s)
  | .error (.rejected f) => .fault f

/-- The step of a valid opcode whose ROM entry is `row` (R102 to R107). -/
def runStages (row : RomEntry) (handler : State → Except Stop State) (s : State) :
    Host.Outcome State Fault Refusal :=
  match dynamicGas row.dynamicGas (advance row s) with
  | .error e => .next (raise e (advance row s))
  | .ok d =>
    match charge (row.constantGas + d.cost) ((advance row s).setWatermark d.watermark) with
    | .error e => .next (raise e ((advance row s).setWatermark d.watermark))
    | .ok t => runHandler handler t

end Sys2Proof.Machine
end

