-- ==== Sys2Proof/Machine/Arith.lean ====
section
/-! DEFINITION. ADD, MUL, SDIV and EXP (41_alu.md). -/

namespace Sys2Proof.Machine

/-- R132 `binop(f)`: A is the top, B the word beneath it; the result takes their place. -/
def binop (f : Word → Word → Word) (s : State) : Except Stop State :=
  match s.stack with
  | a :: b :: rest => .ok (s.setStack (f a b :: rest))
  | _ => .error (.raised .stackUnderflow)

/-- R133 ADD. -/
def execAdd (s : State) : Host.Outcome State Fault Refusal := runStages romAdd (binop addWords) s

/-- R134 MUL. -/
def execMul (s : State) : Host.Outcome State Fault Refusal := runStages romMul (binop mulWords) s

/-- R135 SDIV: the top is the dividend. -/
def execSdiv (s : State) : Host.Outcome State Fault Refusal := runStages romSdiv (binop sdivWords) s

/-- R136 EXP: the top is the base. -/
def execExp (s : State) : Host.Outcome State Fault Refusal := runStages romExp (binop expWords) s

end Sys2Proof.Machine
end

