-- ==== Sys2Proof/Machine/MemoryStore.lean ====
section
/-! DEFINITION. MSTORE and MSTORE8 (43_memory_store.md). -/

namespace Sys2Proof.Machine

/-- The stage-5 handler R160 and R161 share: underflow, then capacity, then both words are popped and the bytes
of the value are stored at the offset. -/
def storeHandler (bytesOf : Word → List Byte) (s : State) : Except Stop State :=
  match s.stack with
  | offset :: value :: rest =>
    if s.params.memBytesMax < ceil32 (offset.toNat + (bytesOf value).length) then
      .error (.raised .capacityExceeded)
    else memWrite offset.toNat (bytesOf value) (s.setStack rest)
  | _ => .error (.raised .stackUnderflow)

/-- R160 MSTORE: the 32-byte big-endian encoding of the value. -/
def execMstore (s : State) : Host.Outcome State Fault Refusal :=
  runStages romMstore (storeHandler wordBytes) s

/-- R161 MSTORE8: the low-order byte of the value. -/
def execMstore8 (s : State) : Host.Outcome State Fault Refusal :=
  runStages romMstore8 (storeHandler (fun v => [lowByte v])) s

end Sys2Proof.Machine
end

