-- ==== Sys2Proof/Machine/Push.lean ====
section
/-! DEFINITION. PUSH1, PUSH2, PUSH3 and PUSH32 (42_push.md), and what a step does with bytes that do not decode. -/

namespace Sys2Proof.Machine

/-- R150 `pushN()`, with the immediate the decoder read: the immediate check, then the stack check. `n` is
`OPCODE − 0x5f`. -/
def pushHandler (imm : Word) (s : State) : Except Stop State :=
  if s.codeLen - s.pc < s.opcode.toNat - 0x5f then
    .error (.raised (.notEnoughBytesToRead s.opcode))
  else
    match push imm s with
    | .error e => .error (.raised e)
    | .ok t => .ok (t.setPc (s.pc + (s.opcode.toNat - 0x5f)))

/-- R151 PUSH1. -/
def execPush1 (imm : Word) (s : State) : Host.Outcome State Fault Refusal :=
  runStages romPush1 (pushHandler imm) s

/-- R152 PUSH2. -/
def execPush2 (imm : Word) (s : State) : Host.Outcome State Fault Refusal :=
  runStages romPush2 (pushHandler imm) s

/-- R153 PUSH3. -/
def execPush3 (imm : Word) (s : State) : Host.Outcome State Fault Refusal :=
  runStages romPush3 (pushHandler imm) s

/-- R154 PUSH32. -/
def execPush32 (imm : Word) (s : State) : Host.Outcome State Fault Refusal :=
  runStages romPush32 (pushHandler imm) s

/-- What a step does when the bytes at `pc` are no whole instruction. An unpopulated opcode is latched and raises
InvalidOpcode with `pc` still at the byte and no gas charged (R102, R175). A PUSH with too few bytes after it runs its
stages, whose handler raises NotEnoughBytesToRead after the charge, before it uses an immediate (R150, R176). -/
def decodeFailure (e : DecodeError) (s : State) : Host.Outcome State Fault Refusal :=
  match e with
  | .noByte => .next (finishRun s)
  | .invalidOpcode op => .next (raise (.invalidOpcode op) (s.setOpcode op))
  | .truncated row => runStages row (pushHandler 0) s
  | .overflow => .fault .conversionOverflow

end Sys2Proof.Machine
end

