-- ==== Sys2Proof/Machine/Sequencer.lean ====
section
/-! DEFINITION. One pass of the sequencer's loop (40_execution_cycle.md R101). -/

namespace Sys2Proof.Machine

/-- R101: while a run is in progress, the end of the code halts it and any other `pc` runs one instruction. When not
running, the block holds its registers (R193). -/
def sequencerPass (s : State) : Host.Outcome State Fault Refusal :=
  match s.seq with
  | .running =>
    if s.codeLen ≤ s.pc then .next (finishRun s)
    else
      match decode (fetchWindow s) with
      | .ok (i, _) => exec i s
      | .error e => decodeFailure e s
  | .idle => .next s
  | .haltedSuccess => .next s
  | .haltedError => .next s

end Sys2Proof.Machine
end

