-- ==== Sys2Proof/Machine/Step.lean ====
section
/-! DEFINITION. A step of the machine, and the placing of an instruction where it fetches. -/

namespace Sys2Proof.Machine

/-- One step is one pass of the sequencer's loop (R101); the host acts between two steps (log entry 18). -/
def step (s : State) : Host.Outcome State Fault Refusal := sequencerPass s

/-- `s` with an opcode-table word's instruction where the next step fetches, in a run (log entry 10). -/
def State.withFetchWord (s : State) (nbits w : Nat) : State :=
  placeCode (ensureRunning s) (tableBytes nbits w)

end Sys2Proof.Machine
end

