-- ==== Sys2Proof/Machine/Execute.lean ====
section
/-! DEFINITION. A whole run: the source's single entry point `execute(code, gasLimit) -> Result` (60_exceptions.md
R188), as a launch followed by passes of the loop. -/

namespace Sys2Proof.Machine

/-- `n` passes of the loop (R101), ending at the first fault or refusal. -/
def runPasses : Nat → State → Host.Outcome State Fault Refusal
  | 0, s => .next s
  | n + 1, s =>
    match step s with
    | .next t => runPasses n t
    | .fault f => .fault f
    | .refused r => .refused r

/-- R188: launch the code, then run `CODE_LEN + 1` passes, which R117 says are enough for every run to halt. -/
def execute (code : List Byte) (limit : Gas) (s : State) : Host.Outcome State Fault Refusal :=
  match hostActs (launchActs code limit) s with
  | .next t => runPasses (code.length + 1) t
  | .fault f => .fault f
  | .refused r => .refused r

end Sys2Proof.Machine
end

