-- ==== Sys2Proof/Safety.lean ====
section
/-! DEFINITION. The terms claims about runs are stated in: a halted state, and the invariant of a state. -/

namespace Sys2Proof.Machine

/-- The state a step goes on to, if it goes on. -/
def nextState? : Host.Outcome State Fault Refusal → Option State
  | .next s => some s
  | .fault _ => none
  | .refused _ => none

/-- R100: the two terminal states of a run. -/
abbrev Halted (s : State) : Prop := s.seq = .haltedSuccess ∨ s.seq = .haltedError

/-- R35, R36: `ERR_KIND` is an error exactly in HaltedError, and `ERR_OPCODE` is 0 but for the two errors that carry
the opcode byte, which is then the byte last fetched (R23, R175, R176). -/
abbrev ErrorRegistersAgree (s : State) : Prop :=
  (s.seq = .haltedError ↔ s.errKind ≠ .none) ∧
  (s.errKind = .invalidOpcode ∨ s.errKind = .notEnoughBytesToRead → s.errOpcode = s.opcode) ∧
  (¬ (s.errKind = .invalidOpcode ∨ s.errKind = .notEnoughBytesToRead) → s.errOpcode = 0)

/-- R29, R52, R59, R60: the scratchpad is canonical, holds no byte at or above `MemLen`, and fits its capacity. -/
abbrev MemoryInBounds (s : State) : Prop :=
  Memory.wf s.mem ∧ (∀ c ∈ s.mem, c.1 < memLen s) ∧ memLen s ≤ s.params.memBytesMax

/-- R22, R33, R34: what holds while a run is in progress: `pc` is within the code, the gas counters sum to the limit,
and the watermark is the cost of the memory. -/
abbrev RunRegistersAgree (s : State) : Prop :=
  s.seq = .running →
    s.pc ≤ s.codeLen ∧
    s.gasConsumed.toNat + s.gasRemaining.toNat = s.gasLimit.toNat ∧
    s.memCostWm.toNat = memCost s.memWords.toNat

/-- R110, R74: after a halt, `DIGEST_OUT` is the digest of the memory bytes. -/
abbrev DigestAgrees (s : State) : Prop := Halted s → s.digestOut = Config.digest (memBytes s)

/-- The invariant of the block between steps. -/
structure Inv (s : State) : Prop where
  params : s.params.wellFormed = true
  codeRising : Rising s.code
  codeLen : s.params.admitsCodeLen s.codeLen = true
  stack : s.stack.length ≤ Config.stackDepth
  memory : MemoryInBounds s
  registers : RunRegistersAgree s
  errors : ErrorRegistersAgree s
  digest : DigestAgrees s

/-! ### The shapes of a step's outcome, written as plain record updates -/

/-- R102, R103: `OPCODE` holds the opcode and `pc` is past it; nothing is charged yet. -/
def latched (op : Byte) (s : State) : State := { s with opcode := op, pc := s.pc + 1 }

/-- R105: the opcode is latched, `pc` is past it, and `cost` gas is charged. -/
def spent (op : Byte) (cost : Nat) (s : State) : State :=
  { s with
    opcode := op
    pc := s.pc + 1
    gasRemaining := BitVec.ofNat 64 (s.gasRemaining.toNat - cost)
    gasConsumed := BitVec.ofNat 64 (s.gasConsumed.toNat + cost) }

/-- R179: `s` halted with an error, and nothing else changed but the digest of its memory. -/
def haltedWith (kind : ErrKind) (info : Byte) (s : State) : State :=
  { s with
    seq := .haltedError
    errKind := kind
    errOpcode := info
    digestOut := Config.digest (memBytes s) }

/-- What a step that raises an error shows the host of it: the recorded error, the gas it charged, and the stack, which
no failing step changes. What else it leaves is said where a claim needs it. -/
structure Raised (kind : ErrKind) (info : Byte) (cost : Nat) (s t : State) : Prop where
  seq : t.seq = .haltedError
  kind : t.errKind = kind
  info : t.errOpcode = info
  remaining : t.gasRemaining = BitVec.ofNat 64 (s.gasRemaining.toNat - cost)
  consumed : t.gasConsumed = BitVec.ofNat 64 (s.gasConsumed.toNat + cost)
  stack : t.stack = s.stack

/-- R112: the memory length a store of `n` bytes at `offset` needs. -/
def storeLen (offset n : Nat) : Nat := (offset + n + 31) / 32 * 32

/-- R34, L1-7: the memory cost of `w` words. -/
def wordsCost (w : Nat) : Nat := 3 * w + w ^ 2 / 512

/-- R112: the dynamic gas of a store of `n` bytes at `offset`. -/
def storeGas (offset n : Nat) (s : State) : Nat :=
  if memLen s < storeLen offset n then
    wordsCost (storeLen offset n / 32) - s.memCostWm.toNat
  else 0

/-- R112: `MEM_COST_WM` after stage 3 of a store of `n` bytes at `offset`. -/
def storeWatermark (offset n : Nat) (s : State) : BitVec 64 :=
  if memLen s < storeLen offset n then BitVec.ofNat 64 (wordsCost (storeLen offset n / 32))
  else s.memCostWm

/-- R54, R57: `MEM_WORDS` after a store of `n` bytes at `offset`. -/
def storeWords (offset n : Nat) (s : State) : BitVec 32 :=
  if memLen s < storeLen offset n then BitVec.ofNat 32 (storeLen offset n / 32) else s.memWords

end Sys2Proof.Machine
end

