-- ==== Sys2Proof/Certificates/Slice0/Obligations.lean ====
section
/-! DEFINITION. The statements for the provers. Each docstring names the rule it formalises. -/

open Sys2Proof Sys2Proof.Machine

/-! ### Encoding -/

/-- R80 to R83, R88: decoding the bytes of a well-formed instruction gives it back, whatever follows them. -/
def Obligations.DecodeEncodeRoundTrip : Prop :=
  ∀ (i : Instr) (rest : List Byte), i.wellFormed = true → decode (encode i ++ rest) = .ok (i, rest)

/-- R80 to R88: what decodes is a well-formed instruction whose encoding is the bytes it was read from. -/
def Obligations.DecodedBytesAreTheEncoding : Prop :=
  ∀ (bs : List Byte) (i : Instr) (rest : List Byte), decode bs = .ok (i, rest) →
    encode i ++ rest = bs ∧ i.wellFormed = true

/-- R81, R82, R84: one word of each opcode, written out from the table, decodes to its instruction. -/
def Obligations.TableWordsDecode : Prop :=
  decode [0x01] = .ok (.add, []) ∧
  decode [0x02] = .ok (.mul, []) ∧
  decode [0x05] = .ok (.sdiv, []) ∧
  decode [0x0a] = .ok (.exp, []) ∧
  decode [0x52] = .ok (.mstore, []) ∧
  decode [0x53] = .ok (.mstore8, []) ∧
  decode [0x60, 0x01] = .ok (.push1 1, []) ∧
  decode [0x61, 0x01, 0x00] = .ok (.push2 0x100, []) ∧
  decode [0x62, 0x01, 0x02, 0x03] = .ok (.push3 0x010203, []) ∧
  decode (0x7f :: 0x80 :: List.replicate 31 0x00) = .ok (.push32 (BitVec.ofNat 256 (2 ^ 255)), []) ∧
  decode [0x09] = .error (.invalidOpcode 0x09)

/-- R84, R86: the ROM is populated at exactly the ten opcodes, with the table's lengths, constant gas and
dynamic-gas functions. -/
def Obligations.RomHoldsExactlyTheTable : Prop :=
  (∀ op : Byte, (rom op).isSome = true ↔
    op ∈ ([0x01, 0x02, 0x05, 0x0a, 0x52, 0x53, 0x60, 0x61, 0x62, 0x7f] : List Byte)) ∧
  rom 0x01 = some ⟨0x01, "ADD", 1, 3, .none⟩ ∧
  rom 0x02 = some ⟨0x02, "MUL", 1, 5, .none⟩ ∧
  rom 0x05 = some ⟨0x05, "SDIV", 1, 5, .none⟩ ∧
  rom 0x0a = some ⟨0x0a, "EXP", 1, 10, .exp⟩ ∧
  rom 0x52 = some ⟨0x52, "MSTORE", 1, 3, .memory 32⟩ ∧
  rom 0x53 = some ⟨0x53, "MSTORE8", 1, 3, .memory 1⟩ ∧
  rom 0x60 = some ⟨0x60, "PUSH1", 2, 3, .none⟩ ∧
  rom 0x61 = some ⟨0x61, "PUSH2", 3, 3, .none⟩ ∧
  rom 0x62 = some ⟨0x62, "PUSH3", 4, 3, .none⟩ ∧
  rom 0x7f = some ⟨0x7f, "PUSH32", 33, 3, .none⟩

/-! ### The sequencer -/

/-- R101 to R107: where the bytes at `pc` decode to a well-formed instruction, the step is `exec` of it at the same
state; the sequencer adds nothing around it. -/
def Obligations.StepRunsDecodedInstruction : Prop :=
  ∀ (s : State) (i : Instr) (rest : List Byte), s.seq = .running → s.pc < s.codeLen →
    decode (fetchWindow s) = .ok (i, rest) → i.wellFormed = true ∧ step s = exec i s

/-- R108: the end of the code is the successful halt; no gas is charged. R110: the result is finalized with the
digest of the memory bytes. -/
def Obligations.EndOfCodeHaltsWithSuccess : Prop :=
  ∀ s : State, s.seq = .running → s.codeLen ≤ s.pc →
    step s = .next { s with seq := .haltedSuccess, digestOut := Config.digest (memBytes s) }

/-- 60_exceptions.md section 6: when not running, the block holds its registers, and a host that neither starts nor resets it leaves a
halted run halted (R184). -/
def Obligations.NotRunningHoldsRegisters : Prop :=
  ∀ s : State, s.seq ≠ .running →
    step s = .next s ∧
    ∀ (a : HostAct) (t : State), a ≠ .reset → a ≠ .writeStart true → hostAct a s = .next t →
      t.seq = s.seq ∧ t.pc = s.pc ∧ t.stack = s.stack ∧ t.mem = s.mem ∧ t.memWords = s.memWords ∧
      t.gasConsumed = s.gasConsumed ∧ t.gasRemaining = s.gasRemaining ∧ t.memCostWm = s.memCostWm ∧
      t.errKind = s.errKind ∧ t.errOpcode = s.errOpcode ∧ t.opcode = s.opcode ∧
      t.digestOut = s.digestOut

/-- 60_exceptions.md section 1, InvalidOpcode: an unpopulated byte raises it (code 5), and it records the byte; `pc`
holds its address, no gas is charged, and the stack is unchanged. That `pc`, the gas and the stack are so rests on
92_eei_decisions.md D12 (log entry 14). What else the error leaves is said in `ErrorsLeaveNoPartialEffect`. -/
def Obligations.InvalidOpcodeHaltsUncharged : Prop :=
  ∀ s : State, s.seq = .running → s.pc < s.codeLen → rom (codeAt s s.pc) = none →
    ∃ t, step s = .next t ∧ Raised .invalidOpcode (codeAt s s.pc) 0 s t ∧ t.errKind.code = 5 ∧ t.pc = s.pc

/-- Safety: no step of any state is a fault or a refusal. The two failures of R178 are unreachable, and no
instruction is left without a meaning. -/
def Obligations.EveryStepAnswersNext : Prop :=
  ∀ s : State, ∃ t, step s = .next t

/-- R117: every run halts within the passes that are left of its code, plus one. -/
def Obligations.EveryRunHalts : Prop :=
  ∀ s : State, s.seq = .running →
    ∃ t, runPasses (s.codeLen - s.pc + 1) s = .next t ∧ Halted t

/-! ### Gas -/

/-- R105: the limit checker, and that each instruction is charged its constant gas plus what its gas function answers,
all at once or not at all. -/
def Obligations.ChargeDeductsOrRaises : Prop :=
  (∀ (cost : Nat) (s : State),
    (s.gasRemaining.toNat < cost → charge cost s = .error .outOfGas) ∧
    (cost ≤ s.gasRemaining.toNat →
      ∃ t, charge cost s = .ok t ∧
        t = { s with gasRemaining := t.gasRemaining, gasConsumed := t.gasConsumed } ∧
        t.gasRemaining.toNat = s.gasRemaining.toNat - cost ∧
        t.gasConsumed.toNat = (s.gasConsumed.toNat + cost) % 2 ^ 64)) ∧
  ∀ (i : Instr) (s : State) (d : DynGas),
    dynamicGas (romOf i).dynamicGas (advance (romOf i) s) = .ok d →
    ((romOf i).constantGas + d.cost ≤ s.gasRemaining.toNat →
      ∃ t, exec i s = .next t ∧
        t.gasRemaining.toNat = s.gasRemaining.toNat - ((romOf i).constantGas + d.cost) ∧
        t.gasConsumed.toNat = (s.gasConsumed.toNat + ((romOf i).constantGas + d.cost)) % 2 ^ 64) ∧
    (s.gasRemaining.toNat < (romOf i).constantGas + d.cost →
      ∃ t, exec i s = .next t ∧ Raised .outOfGas 0 0 s t)

/-- R119: across a run, the consumed gas never decreases and the remaining gas never increases, where the two sum to
the limit as R33 says of every state of a run; and they go on summing to it. -/
def Obligations.GasOnlyMovesToConsumed : Prop :=
  ∀ (n : Nat) (s t : State), s.gasConsumed.toNat + s.gasRemaining.toNat = s.gasLimit.toNat →
    runPasses n s = .next t →
    s.gasConsumed.toNat ≤ t.gasConsumed.toNat ∧ t.gasRemaining.toNat ≤ s.gasRemaining.toNat ∧
    t.gasConsumed.toNat + t.gasRemaining.toNat = s.gasLimit.toNat

/-- R131: the byte-length is the number of bytes needed to write the word with no leading zero byte, and the rule's
formula for it. -/
def Obligations.ByteLengthCountsBytes : Prop :=
  byteLength 0 = 0 ∧
  ∀ v : Word, v ≠ 0 →
    1 ≤ byteLength v ∧ byteLength v ≤ 32 ∧
    256 ^ (byteLength v - 1) ≤ v.toNat ∧ v.toNat < 256 ^ byteLength v ∧
    byteLength v = (Nat.log 2 v.toNat + 1 + 7) / 8

/-- R114: EXP's gas function reads the second word of the stack and answers 50 for each byte of its length, from 0
to 1600; it writes nothing, and it raises StackUnderflow on fewer than two words. -/
def Obligations.ExpGasFollowsExponentLength : Prop :=
  ∀ s : State,
    (s.stack.length < 2 → expGasCost s = .error .stackUnderflow) ∧
    (∀ a b rest, s.stack = a :: b :: rest →
      expGasCost s = .ok ⟨50 * byteLength b, s.memCostWm⟩ ∧ 50 * byteLength b ≤ 1600)

/-- A step that does not run out of gas does the same with `k` more gas, and has `k` more left. -/
def Obligations.ExtraGasChangesNothingElse : Prop :=
  ∀ (s t : State) (k : Nat), s.gasRemaining.toNat + k < 2 ^ 64 → step s = .next t →
    t.errKind ≠ .outOfGas →
    step { s with gasRemaining := BitVec.ofNat 64 (s.gasRemaining.toNat + k) } =
      .next { t with gasRemaining := BitVec.ofNat 64 (t.gasRemaining.toNat + k) }

/-! ### The stack -/

/-- R25 to R27: push, pop and peek, with entries numbered from the bottom as the rules number them. -/
def Obligations.StackPrimitives : Prop :=
  ∀ (s : State) (w : Word) (n : Nat),
    (s.stack.length = 1024 → push w s = .error .stackOverflow) ∧
    (s.stack.length < 1024 → ∃ t, push w s = .ok t ∧ t = { s with stack := t.stack } ∧
      t.stack.reverse = s.stack.reverse ++ [w]) ∧
    (s.stack = [] → pop s = .error .stackUnderflow) ∧
    (s.stack ≠ [] → ∃ v t, pop s = .ok (v, t) ∧ t = { s with stack := t.stack } ∧
      s.stack.reverse = t.stack.reverse ++ [v]) ∧
    (s.stack.length ≤ n → peek n s = .error .stackUnderflow) ∧
    (n < s.stack.length → ∃ v, peek n s = .ok v ∧ s.stack.reverse[s.stack.length - 1 - n]? = some v)

/-! ### Arithmetic -/

/-- R133: ADD, with its encoding, its gas, its result and its two errors. -/
def Obligations.AddWrapsModulo : Prop :=
  encode .add = [0x01] ∧
  ∀ s : State,
    (∀ a b rest, s.stack = a :: b :: rest → 3 ≤ s.gasRemaining.toNat →
      exec .add s = .next { spent 0x01 3 s with
        stack := BitVec.ofNat 256 ((a.toNat + b.toNat) % 2 ^ 256) :: rest }) ∧
    (s.gasRemaining.toNat < 3 → ∃ t, exec .add s = .next t ∧ Raised .outOfGas 0 0 s t) ∧
    (3 ≤ s.gasRemaining.toNat → s.stack.length < 2 →
      ∃ t, exec .add s = .next t ∧ Raised .stackUnderflow 0 3 s t)

/-- R134: MUL, with its encoding, its gas, its result and its two errors. -/
def Obligations.MulWrapsModulo : Prop :=
  encode .mul = [0x02] ∧
  ∀ s : State,
    (∀ a b rest, s.stack = a :: b :: rest → 5 ≤ s.gasRemaining.toNat →
      exec .mul s = .next { spent 0x02 5 s with
        stack := BitVec.ofNat 256 ((a.toNat * b.toNat) % 2 ^ 256) :: rest }) ∧
    (s.gasRemaining.toNat < 5 → ∃ t, exec .mul s = .next t ∧ Raised .outOfGas 0 0 s t) ∧
    (5 ≤ s.gasRemaining.toNat → s.stack.length < 2 →
      ∃ t, exec .mul s = .next t ∧ Raised .stackUnderflow 0 5 s t)

/-- 41_alu.md section 2, SDIV. The quotient is rounded toward zero and −2^255 ÷ −1 wraps, as
92_eei_decisions.md D6 decides (log entry 12): the result is the word of `Int.tdiv`, which is 0 for a zero
divisor. The states after the two errors rest on D12 (log entry 14). -/
def Obligations.SdivTruncatesTowardZero : Prop :=
  encode .sdiv = [0x05] ∧
  ∀ s : State,
    (∀ a b rest, s.stack = a :: b :: rest → 5 ≤ s.gasRemaining.toNat →
      exec .sdiv s = .next { spent 0x05 5 s with
        stack := BitVec.ofInt 256 (Int.tdiv a.toInt b.toInt) :: rest }) ∧
    (s.gasRemaining.toNat < 5 → exec .sdiv s = .next (haltedWith .outOfGas 0 (latched 0x05 s))) ∧
    (5 ≤ s.gasRemaining.toNat → s.stack.length < 2 →
      exec .sdiv s = .next (haltedWith .stackUnderflow 0 (spent 0x05 5 s)))

/-- 41_alu.md section 2, EXP. The result is the mathematical power modulo 2^256, with `A^0 = 1` as
92_eei_decisions.md D7 decides (log entry 13). The underflow is found before any gas is charged. The
states after the two errors rest on D12 (log entry 14). -/
def Obligations.ExpIsThePowerModulo : Prop :=
  encode .exp = [0x0a] ∧
  ∀ s : State,
    (s.stack.length < 2 → exec .exp s = .next (haltedWith .stackUnderflow 0 (latched 0x0a s))) ∧
    (∀ a b rest, s.stack = a :: b :: rest →
      (10 + 50 * byteLength b ≤ s.gasRemaining.toNat →
        exec .exp s = .next { spent 0x0a (10 + 50 * byteLength b) s with
          stack := BitVec.ofNat 256 (a.toNat ^ b.toNat % 2 ^ 256) :: rest }) ∧
      (s.gasRemaining.toNat < 10 + 50 * byteLength b →
        exec .exp s = .next (haltedWith .outOfGas 0 (latched 0x0a s))))

/-! ### Push -/

/-- R150 for PUSH1, PUSH2, PUSH3 and PUSH32 as instructions: the result and the three errors, in the order of their
tests, which rests with the states they leave on 92_eei_decisions.md D12 (log entry 14). -/
def Obligations.PushCompletesOrHalts : Prop :=
  ∀ (imm : Word) (s : State) (i : Instr) (op : Byte) (n : Nat),
    (i, op, n) ∈ ([(.push1 imm, 0x60, 1), (.push2 imm, 0x61, 2), (.push3 imm, 0x62, 3),
      (.push32 imm, 0x7f, 32)] : List (Instr × Byte × Nat)) →
    (3 ≤ s.gasRemaining.toNat → n ≤ s.codeLen - (s.pc + 1) → s.stack.length < 1024 →
      exec i s = .next { spent op 3 s with stack := imm :: s.stack, pc := s.pc + 1 + n }) ∧
    (s.gasRemaining.toNat < 3 → exec i s = .next (haltedWith .outOfGas 0 (latched op s))) ∧
    (3 ≤ s.gasRemaining.toNat → s.codeLen - (s.pc + 1) < n →
      exec i s = .next (haltedWith .notEnoughBytesToRead op (spent op 3 s))) ∧
    (3 ≤ s.gasRemaining.toNat → n ≤ s.codeLen - (s.pc + 1) → s.stack.length = 1024 →
      exec i s = .next (haltedWith .stackOverflow 0 (spent op 3 s)))

/-- 42_push.md, a PUSH as a step: what it pushes is the big-endian value of the n code bytes after the opcode, zero-extended
to a word, and `pc` moves past them; without 3 gas the step is OutOfGas, with too few bytes it is NotEnoughBytesToRead
(code 6), which records the opcode, and on a full stack it is StackOverflow, each of these two with the 3 gas charged and
the stack unchanged. That too few bytes are found before a full stack, and that the stack is unchanged, rest on
92_eei_decisions.md D12 (log entry 14). -/
def Obligations.PushReadsItsImmediateFromCode : Prop :=
  ∀ (s : State) (op : Byte) (n : Nat),
    (op, n) ∈ ([(0x60, 1), (0x61, 2), (0x62, 3), (0x7f, 32)] : List (Byte × Nat)) →
    s.seq = .running → s.pc < s.codeLen → codeAt s s.pc = op →
    (3 ≤ s.gasRemaining.toNat → s.pc + 1 + n ≤ s.codeLen → s.stack.length < 1024 →
      step s = .next { spent op 3 s with
        stack := BitVec.ofNat 256
          (∑ k ∈ Finset.range n, (codeAt s (s.pc + 1 + k)).toNat * 256 ^ (n - 1 - k)) :: s.stack
        pc := s.pc + 1 + n }) ∧
    (s.gasRemaining.toNat < 3 → ∃ t, step s = .next t ∧ Raised .outOfGas 0 0 s t) ∧
    (3 ≤ s.gasRemaining.toNat → s.codeLen < s.pc + 1 + n →
      ∃ t, step s = .next t ∧ Raised .notEnoughBytesToRead op 3 s t ∧ t.errKind.code = 6) ∧
    (3 ≤ s.gasRemaining.toNat → s.pc + 1 + n ≤ s.codeLen → s.stack.length = 1024 →
      ∃ t, step s = .next t ∧ Raised .stackOverflow 0 3 s t)

/-! ### Memory stores -/

/-- 20_memory.md section 2: `ceil32(x)` is the least multiple of 32 that is at least x (92_eei_decisions.md D14). -/
def Obligations.CeilIsTheLeastMultiple : Prop :=
  ∀ x : Nat, ceil32 x % 32 = 0 ∧ x ≤ ceil32 x ∧ ∀ m, m % 32 = 0 → x ≤ m → ceil32 x ≤ m

/-- 43_memory_store.md section on MSTORE: the word's 32 bytes are stored big-endian at the offset on top of the
stack, memory grows to cover them and is zero-filled, and every other byte reads as before. Both words are popped, and
3 gas and the expansion cost are charged. -/
def Obligations.MstoreStoresTheWord : Prop :=
  encode .mstore = [0x52] ∧
  ∀ (s : State) (a v : Word) (rest : List Word), s.stack = a :: v :: rest →
    a.toNat ≤ 0x1FFFFFFFC0 → storeLen a.toNat 32 ≤ s.params.memBytesMax →
    3 + storeGas a.toNat 32 s ≤ s.gasRemaining.toNat →
    ∃ t, exec .mstore s = .next t ∧
      t = { spent 0x52 (3 + storeGas a.toNat 32 s) s with
        stack := rest
        memCostWm := storeWatermark a.toNat 32 s
        memWords := storeWords a.toNat 32 s
        mem := t.mem } ∧
      (∀ k, k < 32 → readByte t (a.toNat + k) = some (BitVec.ofNat 8 (v.toNat / 256 ^ (31 - k)))) ∧
      (∀ x, x < a.toNat ∨ a.toNat + 32 ≤ x →
        readByte t x =
          if x < memLen s then readByte s x
          else if x < storeLen a.toNat 32 then some 0 else none)

/-- 43_memory_store.md section on MSTORE8: the low-order byte of the value is stored at the offset on top of the
stack, memory grows to cover it and is zero-filled, and every other byte reads as before. -/
def Obligations.Mstore8StoresTheLowByte : Prop :=
  encode .mstore8 = [0x53] ∧
  ∀ (s : State) (a v : Word) (rest : List Word), s.stack = a :: v :: rest →
    a.toNat ≤ 0x1FFFFFFFDF → storeLen a.toNat 1 ≤ s.params.memBytesMax →
    3 + storeGas a.toNat 1 s ≤ s.gasRemaining.toNat →
    ∃ t, exec .mstore8 s = .next t ∧
      t = { spent 0x53 (3 + storeGas a.toNat 1 s) s with
        stack := rest
        memCostWm := storeWatermark a.toNat 1 s
        memWords := storeWords a.toNat 1 s
        mem := t.mem } ∧
      readByte t a.toNat = some (BitVec.ofNat 8 (v.toNat % 256)) ∧
      (∀ x, x ≠ a.toNat →
        readByte t x =
          if x < memLen s then readByte s x
          else if x < storeLen a.toNat 1 then some 0 else none)

/-- 60_exceptions.md section 3, the row of MSTORE and MSTORE8: their five errors in priority order, which gas each
charges, and the watermark, which stage 3 writes for good (92_eei_decisions.md D15). -/
def Obligations.StoreErrorsInOrder : Prop :=
  ∀ (s : State) (i : Instr) (op : Byte) (n limit : Nat),
    (i, op, n, limit) ∈ ([(.mstore, 0x52, 32, 0x1FFFFFFFC0), (.mstore8, 0x53, 1, 0x1FFFFFFFDF)] :
      List (Instr × Byte × Nat × Nat)) →
    (s.stack = [] → exec i s = .next (haltedWith .stackUnderflow 0 (latched op s))) ∧
    (∀ a rest, s.stack = a :: rest →
      (limit < a.toNat → exec i s = .next (haltedWith .gasUintOverflow 0 (latched op s))) ∧
      (a.toNat ≤ limit → s.gasRemaining.toNat < 3 + storeGas a.toNat n s →
        exec i s = .next (haltedWith .outOfGas 0
          { latched op s with memCostWm := storeWatermark a.toNat n s })) ∧
      (a.toNat ≤ limit → 3 + storeGas a.toNat n s ≤ s.gasRemaining.toNat →
        (rest = [] → exec i s = .next (haltedWith .stackUnderflow 0
          { spent op (3 + storeGas a.toNat n s) s with memCostWm := storeWatermark a.toNat n s })) ∧
        (rest ≠ [] → s.params.memBytesMax < storeLen a.toNat n →
          exec i s = .next (haltedWith .capacityExceeded 0
            { spent op (3 + storeGas a.toNat n s) s with
              memCostWm := storeWatermark a.toNat n s }))))

/-- R52: memory never shrinks within a run: no step makes `MemLen` smaller, and only MSTORE and MSTORE8 write the
memory (R50). -/
def Obligations.MemoryOnlyGrowsByStores : Prop :=
  ∀ s t : State, step s = .next t →
    memLen s ≤ memLen t ∧ memLen t % 32 = 0 ∧
    ((t.mem ≠ s.mem ∨ t.memWords ≠ s.memWords) →
      s.seq = .running ∧ (t.opcode = 0x52 ∨ t.opcode = 0x53) ∧ t.seq = .running)

/-- R64: no instruction reads memory. What the memory bytes are changes nothing of a step but the memory bytes and
their digest. -/
def Obligations.MemoryBytesInfluenceNothing : Prop :=
  ∀ (s t : State) (cells : List Host.Cell) (d : Word), step s = .next t →
    ∃ cells' d', step { s with mem := cells, digestOut := d } =
      .next { t with mem := cells', digestOut := d' }

/-! ### Errors -/

/-- R170, R36: the codes of `ERR_KIND` and `STATE` (92_eei_decisions.md D5). -/
def Obligations.ErrorAndStateCodes : Prop :=
  ErrKind.none.code = 0 ∧ ErrKind.stackOverflow.code = 1 ∧ ErrKind.stackUnderflow.code = 2 ∧
  ErrKind.gasUintOverflow.code = 3 ∧ ErrKind.outOfGas.code = 4 ∧ ErrKind.invalidOpcode.code = 5 ∧
  ErrKind.notEnoughBytesToRead.code = 6 ∧ ErrKind.capacityExceeded.code = 7 ∧
  Seq.idle.code = 0 ∧ Seq.running.code = 1 ∧ Seq.haltedSuccess.code = 2 ∧ Seq.haltedError.code = 3

/-- 60_exceptions.md section 2: whatever error a step of a run raises, the stack and the memory are as before the step,
`pc` is at an invalid opcode or just past a valid one, `OPCODE` holds the fetched byte, the error is recorded, the
result holds the digest of the memory, and InvalidOpcode, GasUintOverflow and OutOfGas charge no gas. What every handler
error leaves rests on 92_eei_decisions.md D12, and `OPCODE` on D13. -/
def Obligations.ErrorsLeaveNoPartialEffect : Prop :=
  ∀ s t : State, s.seq = .running → step s = .next t → t.seq = .haltedError →
    t.errKind ≠ .none ∧ t.stack = s.stack ∧ t.mem = s.mem ∧ t.memWords = s.memWords ∧
    t.digestOut = Config.digest (memBytes s) ∧ t.opcode = codeAt s s.pc ∧
    (t.pc = if t.errKind = .invalidOpcode then s.pc else s.pc + 1) ∧
    (t.errOpcode =
      if t.errKind = .invalidOpcode ∨ t.errKind = .notEnoughBytesToRead then codeAt s s.pc else 0) ∧
    (t.errKind = .invalidOpcode ∨ t.errKind = .gasUintOverflow ∨ t.errKind = .outOfGas →
      t.gasRemaining = s.gasRemaining ∧ t.gasConsumed = s.gasConsumed)

/-- 60_exceptions.md section 1, OutOfGas: it is raised exactly where the gas function answers and the cost exceeds the
remaining gas, by any of the ten instructions; nothing is deducted and no value is recorded. -/
def Obligations.OutOfGasExactlyWhenCostExceeds : Prop :=
  ∀ (i : Instr) (s t : State), s.errKind = .none → exec i s = .next t →
    (t.errKind = .outOfGas ↔
      ∃ d, dynamicGas (romOf i).dynamicGas (advance (romOf i) s) = .ok d ∧
        s.gasRemaining.toNat < (romOf i).constantGas + d.cost) ∧
    (t.errKind = .outOfGas →
      t.gasRemaining = s.gasRemaining ∧ t.gasConsumed = s.gasConsumed ∧ t.errOpcode = 0)

/-! ### Invariants -/

/-- The reset state meets the invariant. -/
def Obligations.ResetMeetsInvariant : Prop := Inv State.reset

/-- Every step keeps the invariant: the stack within 1024 words (R24), `pc` within the code (R22), the gas counters
summing to the limit (R33), the watermark equal to the cost of the memory (R34), the memory canonical and within its
capacity (R29, R59, R60), the error registers agreeing with the state (R36), and the digest that of the memory after a
halt (R110). -/
def Obligations.StepKeepsInvariant : Prop :=
  ∀ s t : State, Inv s → step s = .next t → Inv t

/-- Every host action the block has a meaning for keeps the invariant (R188, R190, R200, R202). -/
def Obligations.HostActionsKeepInvariant : Prop :=
  ∀ (a : HostAct) (s t : State), Inv s → hostAct a s = .next t → Inv t

/-- R21, R30: no step writes the code, its length, the gas limit or the parameters. -/
def Obligations.StepNeverWritesItsInputs : Prop :=
  ∀ s t : State, step s = .next t →
    t.code = s.code ∧ t.codeLen = s.codeLen ∧ t.gasLimit = s.gasLimit ∧ t.params = s.params ∧
    t.draw = s.draw ∧ ∀ a, codeAt t a = codeAt s a

/-- 10_state.md section 5: in a state of a run that meets the invariant, a step never lowers `MEM_COST_WM`, and after
it the watermark is the cost of the memory unless the step halted with an error. -/
def Obligations.WatermarkNeverDecreases : Prop :=
  ∀ s t : State, Inv s → s.seq = .running → step s = .next t →
    s.memCostWm.toNat ≤ t.memCostWm.toNat ∧
    (t.seq ≠ .haltedError → t.memCostWm.toNat = wordsCost t.memWords.toNat)

/-- R22, R117: over a step of a run, `pc` moves forward or the run halts, and it never passes the end of the code. -/
def Obligations.PcMovesForwardWithinCode : Prop :=
  ∀ s t : State, s.seq = .running → s.pc ≤ s.codeLen → step s = .next t →
    t.pc ≤ t.codeLen ∧ s.pc ≤ t.pc ∧ (s.pc < t.pc ∨ Halted t)

/-! ### Reset, start and the host -/

/-- R40, R200 (92_eei_decisions.md D9): the reset input in any state, running or not (R201), leaves every register at
its reset value, and no code byte loaded before is still loaded. The value of `DIGEST_OUT`, which the spec leaves
unspecified, is not stated. -/
def Obligations.ResetSetsEveryRegister : Prop :=
  ∀ s : State, ∃ t, hostAct .reset s = .next t ∧ t.seq = .idle ∧ t.errKind = .none ∧
    t.errOpcode = 0 ∧ t.pc = 0 ∧ t.opcode = 0 ∧ t.stack = [] ∧ t.memWords = 0 ∧ t.gasLimit = 0 ∧
    t.gasRemaining = 0 ∧ t.gasConsumed = 0 ∧ t.memCostWm = 0 ∧ t.codeLen = 0 ∧ t.code = [] ∧
    t.params = s.params ∧ (∀ a, readByte t a = none)

/-- R202: a write of 1 to `START` while no run is in progress begins a run with fresh state; the code, its length and
the gas limit keep what the host last wrote. What `DIGEST_OUT` holds is not stated. -/
def Obligations.StartBeginsAFreshRun : Prop :=
  ∀ s : State, s.seq ≠ .running → ∃ t, hostAct (.writeStart true) s = .next t ∧
    t.pc = 0 ∧ t.opcode = 0 ∧ t.stack = [] ∧ memLen t = 0 ∧ t.gasRemaining = s.gasLimit ∧
    t.gasConsumed = 0 ∧ t.memCostWm = 0 ∧ t.errKind = .none ∧ t.errOpcode = 0 ∧ t.seq = .running ∧
    t.code = s.code ∧ t.codeLen = s.codeLen ∧ t.gasLimit = s.gasLimit ∧ t.params = s.params ∧
    (∀ a, readByte t a = none)

/-- 60_exceptions.md section 5 (92_eei_decisions.md D16): while a run is in progress the block ignores every host
write, its stack and memory ports return nothing, and only reset acts. -/
def Obligations.HostCannotTouchARun : Prop :=
  ∀ s : State, s.seq = .running →
    (∀ a : HostAct, a ≠ .reset → hostAct a s = .next s) ∧
    (∀ i, hostReadStack i s = none) ∧ (∀ a, hostReadMem a s = none)

/-- 60_exceptions.md section 5: launching code that fits the code space, while no run is in progress, begins a run at
its first byte with the whole gas limit, whatever the block held before. -/
def Obligations.LaunchLoadsTheProgram : Prop :=
  ∀ (s : State) (bs : List Byte) (limit : Gas), s.seq ≠ .running →
    s.params.admitsCodeLen bs.length = true →
    ∃ t, hostActs (launchActs bs limit) s = .next t ∧ t.seq = .running ∧ t.pc = 0 ∧
      t.codeLen = bs.length ∧ t.gasLimit = limit ∧ t.gasRemaining = limit ∧ t.gasConsumed = 0 ∧
      t.stack = [] ∧ t.memWords = 0 ∧ (∀ k (h : k < bs.length), codeAt t k = bs[k])

/-- R188, R189, R194: `execute` of code that fits the code space, while no run is in progress, ends in a halted
state whose result holds the digest of the final memory, gas counters that sum to the limit, and an error exactly where
the run halted with one. -/
def Obligations.ExecuteReturnsAResult : Prop :=
  ∀ (s : State) (bs : List Byte) (limit : Gas), s.seq ≠ .running →
    s.params.admitsCodeLen bs.length = true →
    ∃ t r, execute bs limit s = .next t ∧ Halted t ∧ result t = some r ∧
      r.digest = Config.digest (memBytes t) ∧
      r.consumedGas.toNat + r.gasRefund.toNat = limit.toNat ∧
      r.error = if t.seq = .haltedError then some (t.errKind, t.errOpcode) else none

/-- 60_exceptions.md section 5, with 00_scope.md section 4: a `CODE_LEN` above `CODE_BYTES_MAX` is refused while no
run is in progress. -/
def Obligations.CodeTooLongIsRefused : Prop :=
  ∀ (s : State) (n : Nat), s.seq ≠ .running → s.params.admitsCodeLen n = false →
    hostAct (.writeCodeLen n) s = .refused .codeTooLong

/-- 70_reset_and_hazards.md section 2, with the error order of 60_exceptions.md section 3: a launch with `GAS_LIMIT` 0
lets an empty program succeed and makes the first step of any other halt with an error and nothing consumed. The error
is InvalidOpcode for an invalid byte, StackUnderflow for EXP, MSTORE and MSTORE8, whose stage 3 finds the empty stack
before stage 4 checks the gas (log entry 24), and OutOfGas for every other instruction. -/
def Obligations.ZeroGasLimitRunsNoInstruction : Prop :=
  ∀ (s : State) (bs : List Byte), s.seq ≠ .running → s.params.admitsCodeLen bs.length = true →
    ∃ t u, hostActs (launchActs bs 0) s = .next t ∧ step t = .next u ∧
      u.gasConsumed = 0 ∧ u.gasRemaining = 0 ∧ u.stack = [] ∧ memLen u = 0 ∧
      (bs = [] → u.seq = .haltedSuccess ∧ u.errKind = .none) ∧
      ∀ op rest, bs = op :: rest → u.seq = .haltedError ∧
        u.errKind =
          if rom op = none then .invalidOpcode
          else if op = 0x0a ∨ op = 0x52 ∨ op = 0x53 then .stackUnderflow
          else .outOfGas
end

