-- ==== Sys2Proof/Laws/Bytes.lean ====
section
/-! SUPPORT. Byte sequences and the numbers they stand for. -/

namespace Sys2Proof

@[simp] theorem bytesOfNat_length (n v : Nat) : (bytesOfNat n v).length = n := by
  induction n generalizing v with
  | zero => rfl
  | succ n ih => simp [bytesOfNat, ih]

theorem foldl_bytes (bs : List Byte) (acc : Nat) :
    bs.foldl (fun acc b => acc * 256 + b.toNat) acc = acc * 256 ^ bs.length + natOfBytes bs := by
  induction bs generalizing acc with
  | nil => simp [natOfBytes]
  | cons b rest ih =>
    have h0 : natOfBytes (b :: rest) = b.toNat * 256 ^ rest.length + natOfBytes rest := by
      rw [natOfBytes, List.foldl_cons, ih]; simp
    rw [List.foldl_cons, ih, h0, List.length_cons, pow_succ]
    ring

theorem natOfBytes_cons (b : Byte) (bs : List Byte) :
    natOfBytes (b :: bs) = b.toNat * 256 ^ bs.length + natOfBytes bs := by
  rw [natOfBytes, List.foldl_cons, foldl_bytes]; simp

theorem natOfBytes_lt (bs : List Byte) : natOfBytes bs < 256 ^ bs.length := by
  induction bs with
  | nil => simp [natOfBytes]
  | cons b rest ih =>
    rw [natOfBytes_cons, List.length_cons, pow_succ]
    have hb := b.isLt
    nlinarith [Nat.mul_le_mul_right (256 ^ rest.length) (show b.toNat + 1 ≤ 256 by omega)]

/-- The n-byte encoding of a number stands for the number modulo 256^n. -/
theorem natOfBytes_bytesOfNat (n v : Nat) : natOfBytes (bytesOfNat n v) = v % 256 ^ n := by
  induction n with
  | zero => simp [bytesOfNat, natOfBytes, Nat.mod_one]
  | succ n ih =>
    have h1 := Nat.mod_mul (x := v) (a := 256 ^ n) (b := 256)
    have h2 : (BitVec.ofNat 8 (v / 256 ^ n)).toNat = v / 256 ^ n % 256 := by simp
    rw [bytesOfNat, natOfBytes_cons, ih, bytesOfNat_length, h2, pow_succ, h1]
    ring

/-- The encoding of the number a byte sequence stands for is the sequence. -/
theorem bytesOfNat_natOfBytes (bs : List Byte) : bytesOfNat bs.length (natOfBytes bs) = bs := by
  suffices h : ∀ bs : List Byte, ∀ k, bytesOfNat bs.length (k * 256 ^ bs.length + natOfBytes bs) = bs by
    simpa using h bs 0
  intro bs
  induction bs with
  | nil => intro k; rfl
  | cons b rest ih =>
    intro k
    rw [List.length_cons, bytesOfNat, natOfBytes_cons]
    have hlt := natOfBytes_lt rest
    have hpos : 0 < 256 ^ rest.length := Nat.pow_pos (by norm_num)
    have e : k * 256 ^ (rest.length + 1) + (b.toNat * 256 ^ rest.length + natOfBytes rest) =
        (k * 256 + b.toNat) * 256 ^ rest.length + natOfBytes rest := by ring
    rw [e, ih (k * 256 + b.toNat)]
    have hdiv : ((k * 256 + b.toNat) * 256 ^ rest.length + natOfBytes rest) / 256 ^ rest.length =
        k * 256 + b.toNat := by
      rw [Nat.add_comm, Nat.add_mul_div_right _ _ hpos, Nat.div_eq_of_lt hlt, Nat.zero_add]
    rw [hdiv]
    congr 1
    apply BitVec.eq_of_toNat_eq
    have hb := b.isLt
    simp only [BitVec.toNat_ofNat]
    omega

/-- R137, R178: a sequence of at most 32 bytes never meets the Overflow condition. -/
theorem wordFromBytes_of_length_le {bs : List Byte} (h : bs.length ≤ 32) :
    wordFromBytes bs = some (BitVec.ofNat 256 (natOfBytes bs)) := by
  have h1 : (bs.dropWhile (fun b => b == 0)).length ≤ bs.length :=
    (List.dropWhile_sublist _).length_le
  rw [wordFromBytes, if_neg]
  simp only [Config.pushMaxBytes]; omega

end Sys2Proof
end

