-- ==== Sys2Proof/Laws/State.lean ====
section
/-! SUPPORT. What each named update of the state does to each field: one lemma per field per update, all by `rfl`, so
that no proof unfolds a record update. -/

namespace Sys2Proof.Machine.State

variable (s : State)

@[simp] theorem setOpcode_params (op : Byte) : (s.setOpcode op).params = s.params := rfl
@[simp] theorem setOpcode_code (op : Byte) : (s.setOpcode op).code = s.code := rfl
@[simp] theorem setOpcode_codeLen (op : Byte) : (s.setOpcode op).codeLen = s.codeLen := rfl
@[simp] theorem setOpcode_pc (op : Byte) : (s.setOpcode op).pc = s.pc := rfl
@[simp] theorem setOpcode_opcode (op : Byte) : (s.setOpcode op).opcode = op := rfl
@[simp] theorem setOpcode_stack (op : Byte) : (s.setOpcode op).stack = s.stack := rfl
@[simp] theorem setOpcode_memWords (op : Byte) : (s.setOpcode op).memWords = s.memWords := rfl
@[simp] theorem setOpcode_mem (op : Byte) : (s.setOpcode op).mem = s.mem := rfl
@[simp] theorem setOpcode_gasLimit (op : Byte) : (s.setOpcode op).gasLimit = s.gasLimit := rfl
@[simp] theorem setOpcode_gasRemaining (op : Byte) : (s.setOpcode op).gasRemaining = s.gasRemaining := rfl
@[simp] theorem setOpcode_gasConsumed (op : Byte) : (s.setOpcode op).gasConsumed = s.gasConsumed := rfl
@[simp] theorem setOpcode_memCostWm (op : Byte) : (s.setOpcode op).memCostWm = s.memCostWm := rfl
@[simp] theorem setOpcode_seq (op : Byte) : (s.setOpcode op).seq = s.seq := rfl
@[simp] theorem setOpcode_errKind (op : Byte) : (s.setOpcode op).errKind = s.errKind := rfl
@[simp] theorem setOpcode_errOpcode (op : Byte) : (s.setOpcode op).errOpcode = s.errOpcode := rfl
@[simp] theorem setOpcode_digestOut (op : Byte) : (s.setOpcode op).digestOut = s.digestOut := rfl
@[simp] theorem setOpcode_draw (op : Byte) : (s.setOpcode op).draw = s.draw := rfl

@[simp] theorem setPc_params (v : Nat) : (s.setPc v).params = s.params := rfl
@[simp] theorem setPc_code (v : Nat) : (s.setPc v).code = s.code := rfl
@[simp] theorem setPc_codeLen (v : Nat) : (s.setPc v).codeLen = s.codeLen := rfl
@[simp] theorem setPc_pc (v : Nat) : (s.setPc v).pc = v := rfl
@[simp] theorem setPc_opcode (v : Nat) : (s.setPc v).opcode = s.opcode := rfl
@[simp] theorem setPc_stack (v : Nat) : (s.setPc v).stack = s.stack := rfl
@[simp] theorem setPc_memWords (v : Nat) : (s.setPc v).memWords = s.memWords := rfl
@[simp] theorem setPc_mem (v : Nat) : (s.setPc v).mem = s.mem := rfl
@[simp] theorem setPc_gasLimit (v : Nat) : (s.setPc v).gasLimit = s.gasLimit := rfl
@[simp] theorem setPc_gasRemaining (v : Nat) : (s.setPc v).gasRemaining = s.gasRemaining := rfl
@[simp] theorem setPc_gasConsumed (v : Nat) : (s.setPc v).gasConsumed = s.gasConsumed := rfl
@[simp] theorem setPc_memCostWm (v : Nat) : (s.setPc v).memCostWm = s.memCostWm := rfl
@[simp] theorem setPc_seq (v : Nat) : (s.setPc v).seq = s.seq := rfl
@[simp] theorem setPc_errKind (v : Nat) : (s.setPc v).errKind = s.errKind := rfl
@[simp] theorem setPc_errOpcode (v : Nat) : (s.setPc v).errOpcode = s.errOpcode := rfl
@[simp] theorem setPc_digestOut (v : Nat) : (s.setPc v).digestOut = s.digestOut := rfl
@[simp] theorem setPc_draw (v : Nat) : (s.setPc v).draw = s.draw := rfl

@[simp] theorem setStack_params (st : List Word) : (s.setStack st).params = s.params := rfl
@[simp] theorem setStack_code (st : List Word) : (s.setStack st).code = s.code := rfl
@[simp] theorem setStack_codeLen (st : List Word) : (s.setStack st).codeLen = s.codeLen := rfl
@[simp] theorem setStack_pc (st : List Word) : (s.setStack st).pc = s.pc := rfl
@[simp] theorem setStack_opcode (st : List Word) : (s.setStack st).opcode = s.opcode := rfl
@[simp] theorem setStack_stack (st : List Word) : (s.setStack st).stack = st := rfl
@[simp] theorem setStack_memWords (st : List Word) : (s.setStack st).memWords = s.memWords := rfl
@[simp] theorem setStack_mem (st : List Word) : (s.setStack st).mem = s.mem := rfl
@[simp] theorem setStack_gasLimit (st : List Word) : (s.setStack st).gasLimit = s.gasLimit := rfl
@[simp] theorem setStack_gasRemaining (st : List Word) : (s.setStack st).gasRemaining = s.gasRemaining := rfl
@[simp] theorem setStack_gasConsumed (st : List Word) : (s.setStack st).gasConsumed = s.gasConsumed := rfl
@[simp] theorem setStack_memCostWm (st : List Word) : (s.setStack st).memCostWm = s.memCostWm := rfl
@[simp] theorem setStack_seq (st : List Word) : (s.setStack st).seq = s.seq := rfl
@[simp] theorem setStack_errKind (st : List Word) : (s.setStack st).errKind = s.errKind := rfl
@[simp] theorem setStack_errOpcode (st : List Word) : (s.setStack st).errOpcode = s.errOpcode := rfl
@[simp] theorem setStack_digestOut (st : List Word) : (s.setStack st).digestOut = s.digestOut := rfl
@[simp] theorem setStack_draw (st : List Word) : (s.setStack st).draw = s.draw := rfl

@[simp] theorem setGas_params (r c : Gas) : (s.setGas r c).params = s.params := rfl
@[simp] theorem setGas_code (r c : Gas) : (s.setGas r c).code = s.code := rfl
@[simp] theorem setGas_codeLen (r c : Gas) : (s.setGas r c).codeLen = s.codeLen := rfl
@[simp] theorem setGas_pc (r c : Gas) : (s.setGas r c).pc = s.pc := rfl
@[simp] theorem setGas_opcode (r c : Gas) : (s.setGas r c).opcode = s.opcode := rfl
@[simp] theorem setGas_stack (r c : Gas) : (s.setGas r c).stack = s.stack := rfl
@[simp] theorem setGas_memWords (r c : Gas) : (s.setGas r c).memWords = s.memWords := rfl
@[simp] theorem setGas_mem (r c : Gas) : (s.setGas r c).mem = s.mem := rfl
@[simp] theorem setGas_gasLimit (r c : Gas) : (s.setGas r c).gasLimit = s.gasLimit := rfl
@[simp] theorem setGas_gasRemaining (r c : Gas) : (s.setGas r c).gasRemaining = r := rfl
@[simp] theorem setGas_gasConsumed (r c : Gas) : (s.setGas r c).gasConsumed = c := rfl
@[simp] theorem setGas_memCostWm (r c : Gas) : (s.setGas r c).memCostWm = s.memCostWm := rfl
@[simp] theorem setGas_seq (r c : Gas) : (s.setGas r c).seq = s.seq := rfl
@[simp] theorem setGas_errKind (r c : Gas) : (s.setGas r c).errKind = s.errKind := rfl
@[simp] theorem setGas_errOpcode (r c : Gas) : (s.setGas r c).errOpcode = s.errOpcode := rfl
@[simp] theorem setGas_digestOut (r c : Gas) : (s.setGas r c).digestOut = s.digestOut := rfl
@[simp] theorem setGas_draw (r c : Gas) : (s.setGas r c).draw = s.draw := rfl

@[simp] theorem setWatermark_params (wm : BitVec 64) : (s.setWatermark wm).params = s.params := rfl
@[simp] theorem setWatermark_code (wm : BitVec 64) : (s.setWatermark wm).code = s.code := rfl
@[simp] theorem setWatermark_codeLen (wm : BitVec 64) : (s.setWatermark wm).codeLen = s.codeLen := rfl
@[simp] theorem setWatermark_pc (wm : BitVec 64) : (s.setWatermark wm).pc = s.pc := rfl
@[simp] theorem setWatermark_opcode (wm : BitVec 64) : (s.setWatermark wm).opcode = s.opcode := rfl
@[simp] theorem setWatermark_stack (wm : BitVec 64) : (s.setWatermark wm).stack = s.stack := rfl
@[simp] theorem setWatermark_memWords (wm : BitVec 64) : (s.setWatermark wm).memWords = s.memWords := rfl
@[simp] theorem setWatermark_mem (wm : BitVec 64) : (s.setWatermark wm).mem = s.mem := rfl
@[simp] theorem setWatermark_gasLimit (wm : BitVec 64) : (s.setWatermark wm).gasLimit = s.gasLimit := rfl
@[simp] theorem setWatermark_gasRemaining (wm : BitVec 64) : (s.setWatermark wm).gasRemaining = s.gasRemaining := rfl
@[simp] theorem setWatermark_gasConsumed (wm : BitVec 64) : (s.setWatermark wm).gasConsumed = s.gasConsumed := rfl
@[simp] theorem setWatermark_memCostWm (wm : BitVec 64) : (s.setWatermark wm).memCostWm = wm := rfl
@[simp] theorem setWatermark_seq (wm : BitVec 64) : (s.setWatermark wm).seq = s.seq := rfl
@[simp] theorem setWatermark_errKind (wm : BitVec 64) : (s.setWatermark wm).errKind = s.errKind := rfl
@[simp] theorem setWatermark_errOpcode (wm : BitVec 64) : (s.setWatermark wm).errOpcode = s.errOpcode := rfl
@[simp] theorem setWatermark_digestOut (wm : BitVec 64) : (s.setWatermark wm).digestOut = s.digestOut := rfl
@[simp] theorem setWatermark_draw (wm : BitVec 64) : (s.setWatermark wm).draw = s.draw := rfl

@[simp] theorem setMemory_params (n : BitVec 32) (cs : List Host.Cell) : (s.setMemory n cs).params = s.params := rfl
@[simp] theorem setMemory_code (n : BitVec 32) (cs : List Host.Cell) : (s.setMemory n cs).code = s.code := rfl
@[simp] theorem setMemory_codeLen (n : BitVec 32) (cs : List Host.Cell) : (s.setMemory n cs).codeLen = s.codeLen := rfl
@[simp] theorem setMemory_pc (n : BitVec 32) (cs : List Host.Cell) : (s.setMemory n cs).pc = s.pc := rfl
@[simp] theorem setMemory_opcode (n : BitVec 32) (cs : List Host.Cell) : (s.setMemory n cs).opcode = s.opcode := rfl
@[simp] theorem setMemory_stack (n : BitVec 32) (cs : List Host.Cell) : (s.setMemory n cs).stack = s.stack := rfl
@[simp] theorem setMemory_memWords (n : BitVec 32) (cs : List Host.Cell) : (s.setMemory n cs).memWords = n := rfl
@[simp] theorem setMemory_mem (n : BitVec 32) (cs : List Host.Cell) : (s.setMemory n cs).mem = cs := rfl
@[simp] theorem setMemory_gasLimit (n : BitVec 32) (cs : List Host.Cell) : (s.setMemory n cs).gasLimit = s.gasLimit := rfl
@[simp] theorem setMemory_gasRemaining (n : BitVec 32) (cs : List Host.Cell) : (s.setMemory n cs).gasRemaining = s.gasRemaining := rfl
@[simp] theorem setMemory_gasConsumed (n : BitVec 32) (cs : List Host.Cell) : (s.setMemory n cs).gasConsumed = s.gasConsumed := rfl
@[simp] theorem setMemory_memCostWm (n : BitVec 32) (cs : List Host.Cell) : (s.setMemory n cs).memCostWm = s.memCostWm := rfl
@[simp] theorem setMemory_seq (n : BitVec 32) (cs : List Host.Cell) : (s.setMemory n cs).seq = s.seq := rfl
@[simp] theorem setMemory_errKind (n : BitVec 32) (cs : List Host.Cell) : (s.setMemory n cs).errKind = s.errKind := rfl
@[simp] theorem setMemory_errOpcode (n : BitVec 32) (cs : List Host.Cell) : (s.setMemory n cs).errOpcode = s.errOpcode := rfl
@[simp] theorem setMemory_digestOut (n : BitVec 32) (cs : List Host.Cell) : (s.setMemory n cs).digestOut = s.digestOut := rfl
@[simp] theorem setMemory_draw (n : BitVec 32) (cs : List Host.Cell) : (s.setMemory n cs).draw = s.draw := rfl

@[simp] theorem setSeq_params (q : Seq) (k : ErrKind) (b : Byte) : (s.setSeq q k b).params = s.params := rfl
@[simp] theorem setSeq_code (q : Seq) (k : ErrKind) (b : Byte) : (s.setSeq q k b).code = s.code := rfl
@[simp] theorem setSeq_codeLen (q : Seq) (k : ErrKind) (b : Byte) : (s.setSeq q k b).codeLen = s.codeLen := rfl
@[simp] theorem setSeq_pc (q : Seq) (k : ErrKind) (b : Byte) : (s.setSeq q k b).pc = s.pc := rfl
@[simp] theorem setSeq_opcode (q : Seq) (k : ErrKind) (b : Byte) : (s.setSeq q k b).opcode = s.opcode := rfl
@[simp] theorem setSeq_stack (q : Seq) (k : ErrKind) (b : Byte) : (s.setSeq q k b).stack = s.stack := rfl
@[simp] theorem setSeq_memWords (q : Seq) (k : ErrKind) (b : Byte) : (s.setSeq q k b).memWords = s.memWords := rfl
@[simp] theorem setSeq_mem (q : Seq) (k : ErrKind) (b : Byte) : (s.setSeq q k b).mem = s.mem := rfl
@[simp] theorem setSeq_gasLimit (q : Seq) (k : ErrKind) (b : Byte) : (s.setSeq q k b).gasLimit = s.gasLimit := rfl
@[simp] theorem setSeq_gasRemaining (q : Seq) (k : ErrKind) (b : Byte) : (s.setSeq q k b).gasRemaining = s.gasRemaining := rfl
@[simp] theorem setSeq_gasConsumed (q : Seq) (k : ErrKind) (b : Byte) : (s.setSeq q k b).gasConsumed = s.gasConsumed := rfl
@[simp] theorem setSeq_memCostWm (q : Seq) (k : ErrKind) (b : Byte) : (s.setSeq q k b).memCostWm = s.memCostWm := rfl
@[simp] theorem setSeq_seq (q : Seq) (k : ErrKind) (b : Byte) : (s.setSeq q k b).seq = q := rfl
@[simp] theorem setSeq_errKind (q : Seq) (k : ErrKind) (b : Byte) : (s.setSeq q k b).errKind = k := rfl
@[simp] theorem setSeq_errOpcode (q : Seq) (k : ErrKind) (b : Byte) : (s.setSeq q k b).errOpcode = b := rfl
@[simp] theorem setSeq_digestOut (q : Seq) (k : ErrKind) (b : Byte) : (s.setSeq q k b).digestOut = s.digestOut := rfl
@[simp] theorem setSeq_draw (q : Seq) (k : ErrKind) (b : Byte) : (s.setSeq q k b).draw = s.draw := rfl

@[simp] theorem setDigest_params (d : Word) : (s.setDigest d).params = s.params := rfl
@[simp] theorem setDigest_code (d : Word) : (s.setDigest d).code = s.code := rfl
@[simp] theorem setDigest_codeLen (d : Word) : (s.setDigest d).codeLen = s.codeLen := rfl
@[simp] theorem setDigest_pc (d : Word) : (s.setDigest d).pc = s.pc := rfl
@[simp] theorem setDigest_opcode (d : Word) : (s.setDigest d).opcode = s.opcode := rfl
@[simp] theorem setDigest_stack (d : Word) : (s.setDigest d).stack = s.stack := rfl
@[simp] theorem setDigest_memWords (d : Word) : (s.setDigest d).memWords = s.memWords := rfl
@[simp] theorem setDigest_mem (d : Word) : (s.setDigest d).mem = s.mem := rfl
@[simp] theorem setDigest_gasLimit (d : Word) : (s.setDigest d).gasLimit = s.gasLimit := rfl
@[simp] theorem setDigest_gasRemaining (d : Word) : (s.setDigest d).gasRemaining = s.gasRemaining := rfl
@[simp] theorem setDigest_gasConsumed (d : Word) : (s.setDigest d).gasConsumed = s.gasConsumed := rfl
@[simp] theorem setDigest_memCostWm (d : Word) : (s.setDigest d).memCostWm = s.memCostWm := rfl
@[simp] theorem setDigest_seq (d : Word) : (s.setDigest d).seq = s.seq := rfl
@[simp] theorem setDigest_errKind (d : Word) : (s.setDigest d).errKind = s.errKind := rfl
@[simp] theorem setDigest_errOpcode (d : Word) : (s.setDigest d).errOpcode = s.errOpcode := rfl
@[simp] theorem setDigest_digestOut (d : Word) : (s.setDigest d).digestOut = d := rfl
@[simp] theorem setDigest_draw (d : Word) : (s.setDigest d).draw = s.draw := rfl

end Sys2Proof.Machine.State
end

