-- ==== Sys2Proof/Laws/Memory.lean ====
section
/-! SUPPORT. The laws of bytes held by address: reads after writes, and the canonical form kept by every operation. -/

namespace Sys2Proof.Machine

/-! ### Reads after writes -/

theorem lookupCell_insertCell (a : Nat) (b : Byte) (cs : List Host.Cell) (x : Nat) :
    lookupCell (insertCell a b cs) x = if x = a then some b else lookupCell cs x := by
  induction cs with
  | nil => simp [insertCell, lookupCell, eq_comm]
  | cons c rest ih =>
    obtain ⟨k, d⟩ := c
    by_cases h1 : a < k
    · simp [insertCell, h1, lookupCell, eq_comm]
    · by_cases h2 : k = a
      · subst h2
        by_cases hx : k = x
        · simp [insertCell, lookupCell, hx]
        · simp [insertCell, lookupCell, hx, Ne.symm hx]
      · by_cases hx : k = x
        · subst hx; simp [insertCell, h1, h2, lookupCell]
        · simp [insertCell, h1, h2, lookupCell, hx, ih]

theorem lookupCell_filter (p : Nat → Bool) (cs : List Host.Cell) (x : Nat) :
    lookupCell (cs.filter (fun c => p c.1)) x = if p x then lookupCell cs x else none := by
  induction cs with
  | nil => simp [lookupCell]
  | cons c rest ih =>
    obtain ⟨k, d⟩ := c
    by_cases hx : k = x
    · subst hx
      by_cases hp : p k <;> simp [hp, lookupCell, ih]
    · by_cases hp : p k <;> simp [hp, lookupCell, hx, ih]

/-- A read after a byte write: the byte at the written address, and every other address as before. -/
theorem readCell_writeCell (cs : List Host.Cell) (a : Nat) (b : Byte) (x : Nat) :
    readCell (writeCell cs a b) x = if x = a then b else readCell cs x := by
  unfold writeCell
  split
  · have := lookupCell_filter (fun k => decide (k ≠ a)) cs x
    by_cases hx : x = a <;> simp_all [readCell]
  · by_cases hx : x = a <;> simp [readCell, lookupCell_insertCell, hx]

/-- A read after a write of several bytes. -/
theorem readCell_writeCells (bs : List Byte) (cs : List Host.Cell) (a x : Nat) :
    readCell (writeCells cs a bs) x =
      if a ≤ x ∧ x < a + bs.length then bs.getD (x - a) 0 else readCell cs x := by
  induction bs generalizing cs a with
  | nil => simp [writeCells]
  | cons b rest ih =>
    simp only [writeCells, ih, readCell_writeCell, List.length_cons]
    by_cases h1 : a + 1 ≤ x ∧ x < a + 1 + rest.length
    · have h2 : a ≤ x ∧ x < a + (rest.length + 1) := by omega
      have h3 : x - a = (x - (a + 1)) + 1 := by omega
      rw [if_pos h1, if_pos h2, h3, List.getD_cons_succ]
    · by_cases h3 : x = a
      · subst h3; simp
      · have h2 : ¬(a ≤ x ∧ x < a + (rest.length + 1)) := by omega
        rw [if_neg h1, if_neg h3, if_neg h2]

/-- A read after the bytes at or above `n` are dropped. -/
theorem readCell_filter_lt (cs : List Host.Cell) (n x : Nat) :
    readCell (cs.filter (fun c => c.1 < n)) x = if x < n then readCell cs x else 0 := by
  have := lookupCell_filter (fun k => decide (k < n)) cs x
  by_cases hx : x < n <;> simp_all [readCell]

/-! ### The canonical form -/

theorem mem_insertCell {a : Nat} {b : Byte} {cs : List Host.Cell} {c : Host.Cell}
    (h : c ∈ insertCell a b cs) : c = (a, b) ∨ c ∈ cs := by
  induction cs with
  | nil => simpa [insertCell] using h
  | cons d rest ih =>
    obtain ⟨k, e⟩ := d
    simp only [insertCell] at h
    split at h
    · simpa using h
    · split at h
      · rcases List.mem_cons.1 h with h | h
        · exact .inl h
        · exact .inr (List.mem_cons_of_mem _ h)
      · rcases List.mem_cons.1 h with h | h
        · exact .inr (h ▸ List.mem_cons_self)
        · exact (ih h).imp_right (List.mem_cons_of_mem _)

theorem rising_insertCell (a : Nat) (b : Byte) {cs : List Host.Cell} (h : Rising cs) :
    Rising (insertCell a b cs) := by
  induction cs with
  | nil => simp [insertCell, Rising]
  | cons d rest ih =>
    obtain ⟨k, e⟩ := d
    obtain ⟨h1, h2⟩ := List.pairwise_cons.1 h
    simp only [insertCell]
    split
    · rename_i hak
      refine List.pairwise_cons.2 ⟨fun c hc => ?_, h⟩
      rcases List.mem_cons.1 hc with rfl | hc
      · exact hak
      · exact lt_trans hak (h1 c hc)
    · split
      · rename_i hka
        exact List.pairwise_cons.2 ⟨fun c hc => hka ▸ h1 c hc, h2⟩
      · refine List.pairwise_cons.2 ⟨fun c hc => ?_, ih h2⟩
        rcases mem_insertCell hc with rfl | hc
        · show k < a; omega
        · exact h1 c hc

/-- Every byte write keeps the canonical form. -/
theorem wf_writeCell (a : Nat) (b : Byte) {cs : List Host.Cell} (h : Memory.wf cs) :
    Memory.wf (writeCell cs a b) := by
  unfold writeCell
  split
  · exact ⟨h.1.filter _, fun c hc => h.2 c (List.mem_of_mem_filter hc)⟩
  · rename_i hb
    refine ⟨rising_insertCell a b h.1, fun c hc => ?_⟩
    rcases mem_insertCell hc with rfl | hc
    · exact hb
    · exact h.2 c hc

theorem wf_writeCells (bs : List Byte) (a : Nat) {cs : List Host.Cell} (h : Memory.wf cs) :
    Memory.wf (writeCells cs a bs) := by
  induction bs generalizing a cs with
  | nil => exact h
  | cons b rest ih => exact ih (a + 1) (wf_writeCell a b h)

/-- Dropping the bytes at or above an address keeps the canonical form. -/
theorem wf_filter (p : Host.Cell → Bool) {cs : List Host.Cell} (h : Memory.wf cs) :
    Memory.wf (cs.filter p) :=
  ⟨h.1.filter _, fun c hc => h.2 c (List.mem_of_mem_filter hc)⟩

theorem mem_writeCell {a : Nat} {b : Byte} {cs : List Host.Cell} {c : Host.Cell}
    (h : c ∈ writeCell cs a b) : c.1 = a ∨ c ∈ cs := by
  unfold writeCell at h
  split at h
  · exact .inr (List.mem_of_mem_filter h)
  · exact (mem_insertCell h).imp_left (fun e => by rw [e])

/-- A write lists no address but the written ones and those listed before. -/
theorem mem_writeCells {bs : List Byte} {a : Nat} {cs : List Host.Cell} {c : Host.Cell}
    (h : c ∈ writeCells cs a bs) : (a ≤ c.1 ∧ c.1 < a + bs.length) ∨ c ∈ cs := by
  induction bs generalizing a cs with
  | nil => exact .inr h
  | cons b rest ih =>
    rcases ih h with h | h
    · exact .inl ⟨by omega, by simp only [List.length_cons]; omega⟩
    · rcases mem_writeCell h with h | h
      · exact .inl ⟨by omega, by simp only [List.length_cons]; omega⟩
      · exact .inr h

/-! ### The memory controller -/

theorem le_ceil32 (x : Nat) : x ≤ ceil32 x := by unfold ceil32; omega

theorem ceil32_dvd (x : Nat) : 32 * (ceil32 x / 32) = ceil32 x := by unfold ceil32; omega

/-- Everything `extend` can do when it goes on: nothing, or the growth to `ceil32 size`, zero-filled. -/
theorem extend_cases {size : Nat} {s t : State} (h : extend size s = .ok t) :
    (ceil32 size ≤ memLen s ∧ t = s) ∨
    (memLen s < ceil32 size ∧ ceil32 size ≤ s.params.memBytesMax ∧ ceil32 size / 32 < 2 ^ 32 ∧
      t = s.setMemory (BitVec.ofNat 32 (ceil32 size / 32))
        (s.mem.filter (fun c => c.1 < memLen s))) := by
  unfold extend at h
  split at h
  · exact .inl ⟨‹_›, by simpa using h.symm⟩
  · split at h
    · simp at h
    · split at h
      · simp at h
      · exact .inr ⟨by omega, by omega, by omega, by simpa using h.symm⟩

/-- Why `extend` stops: the capacity, or a word count that does not fit its register. -/
theorem extend_error {size : Nat} {s : State} {e : Stop} (h : extend size s = .error e) :
    (s.params.memBytesMax < ceil32 size ∧ e = .raised .capacityExceeded) ∨
    (2 ^ 32 ≤ ceil32 size / 32 ∧ e = .rejected .memorySizeOverflow) := by
  unfold extend at h
  split at h
  · simp at h
  · split at h
    · exact .inl ⟨‹_›, by simpa using h.symm⟩
    · split at h
      · exact .inr ⟨‹_›, by simpa using h.symm⟩
      · simp at h

/-- R54, L1-3: the length after `extend` is `ceil32 size` where that exceeds the old length, else unchanged. -/
theorem memLen_extend {size : Nat} {s t : State} (h : extend size s = .ok t) :
    memLen t = max (memLen s) (ceil32 size) := by
  rcases extend_cases h with ⟨h1, rfl⟩ | ⟨h1, -, h3, rfl⟩
  · omega
  · have := ceil32_dvd size
    simp only [memLen, State.setMemory_memWords, BitVec.toNat_ofNat] at h1 ⊢
    rw [Nat.mod_eq_of_lt h3]; omega

/-- `extend` writes only the memory. -/
theorem extend_frame {size : Nat} {s t : State} (h : extend size s = .ok t) :
    t = s.setMemory t.memWords t.mem := by
  rcases extend_cases h with ⟨-, rfl⟩ | ⟨-, -, -, rfl⟩ <;> rfl

/-- R54: every old byte keeps its value, and every added byte reads 0x00. -/
theorem readCell_extend {size : Nat} {s t : State} (h : extend size s = .ok t) (a : Nat)
    (ha : a < memLen t) : readCell t.mem a = if a < memLen s then readCell s.mem a else 0 := by
  rcases extend_cases h with ⟨-, rfl⟩ | ⟨-, -, -, rfl⟩
  · rw [if_pos ha]
  · exact readCell_filter_lt _ _ _

theorem memWrite_cases {offset : Nat} {bs : List Byte} {s t : State} (h : memWrite offset bs s = .ok t) :
    ∃ u, extend (offset + bs.length) s = .ok u ∧
      t = u.setMemory u.memWords (writeCells u.mem offset bs) := by
  unfold memWrite at h
  split at h
  · simp at h
  · exact ⟨_, ‹_›, by simpa using h.symm⟩

/-- `memWrite` writes only the memory. -/
theorem memWrite_frame {offset : Nat} {bs : List Byte} {s t : State} (h : memWrite offset bs s = .ok t) :
    t = s.setMemory t.memWords t.mem := by
  obtain ⟨u, hu, rfl⟩ := memWrite_cases h
  rw [extend_frame hu]; rfl

theorem memLen_memWrite {offset : Nat} {bs : List Byte} {s t : State} (h : memWrite offset bs s = .ok t) :
    memLen t = max (memLen s) (ceil32 (offset + bs.length)) := by
  obtain ⟨u, hu, rfl⟩ := memWrite_cases h
  show memLen u = _
  exact memLen_extend hu

/-- R55, R56: the stored bytes read as written, every other old byte as before, and every other added byte as
0x00. -/
theorem readByte_memWrite {offset : Nat} {bs : List Byte} {s t : State}
    (h : memWrite offset bs s = .ok t) (a : Nat) :
    readByte t a =
      if offset ≤ a ∧ a < offset + bs.length then some (bs.getD (a - offset) 0)
      else if a < memLen s then readByte s a
      else if a < memLen t then some 0 else none := by
  have hlen := memLen_memWrite h
  have hle := le_ceil32 (offset + bs.length)
  obtain ⟨u, hu, rfl⟩ := memWrite_cases h
  have hm : memLen (u.setMemory u.memWords (writeCells u.mem offset bs)) = memLen u := rfl
  rw [hm] at hlen ⊢
  unfold readByte
  rw [hm, State.setMemory_mem, readCell_writeCells]
  by_cases h1 : offset ≤ a ∧ a < offset + bs.length
  · have h2 : a < memLen u := by omega
    simp [h1, h2]
  · by_cases h2 : a < memLen u
    · rw [if_neg h1, if_neg h1, if_pos h2, readCell_extend hu a h2]
      by_cases h3 : a < memLen s <;> simp [h2, h3]
    · have h3 : ¬ a < memLen s := by omega
      simp [h1, h2, h3]

/-- An extension keeps the canonical form. -/
theorem wf_extend {size : Nat} {s t : State} (h : extend size s = .ok t) (hs : Memory.wf s.mem) :
    Memory.wf t.mem := by
  rcases extend_cases h with ⟨-, rfl⟩ | ⟨-, -, -, rfl⟩
  · exact hs
  · exact wf_filter _ hs

/-- A memory write keeps the canonical form. -/
theorem wf_memWrite {offset : Nat} {bs : List Byte} {s t : State} (h : memWrite offset bs s = .ok t)
    (hs : Memory.wf s.mem) : Memory.wf t.mem := by
  obtain ⟨u, hu, rfl⟩ := memWrite_cases h
  exact wf_writeCells _ _ (wf_extend hu hs)

/-- A memory write lists no byte at or above the new `MemLen`. -/
theorem bounded_memWrite {offset : Nat} {bs : List Byte} {s t : State} (h : memWrite offset bs s = .ok t)
    (hs : ∀ c ∈ s.mem, c.1 < memLen s) : ∀ c ∈ t.mem, c.1 < memLen t := by
  intro c hc
  have hlen := memLen_memWrite h
  have hle := le_ceil32 (offset + bs.length)
  obtain ⟨u, hu, rfl⟩ := memWrite_cases h
  rcases mem_writeCells hc with hc | hc
  · omega
  · rcases extend_cases hu with ⟨-, rfl⟩ | ⟨h1, -, -, rfl⟩
    · exact hs c hc
    · have := hs c (List.mem_of_mem_filter hc); omega

theorem wf_reset : Memory.wf State.reset.mem := by decide

end Sys2Proof.Machine
end

