-- ==== Sys2Proof/Laws/Cycle.lean ====
section
/-! SUPPORT. What each shared operation of a step can do, said once: the stack primitives, the gas functions, the
limit checker, the stages, the handlers and the step. -/

namespace Sys2Proof.Machine

/-! ### Taking an error and ending a run -/

@[simp] theorem memLen_setSeq (s : State) (q : Seq) (k : ErrKind) (b : Byte) :
    memLen (s.setSeq q k b) = memLen s := rfl

@[simp] theorem memBytes_setSeq (s : State) (q : Seq) (k : ErrKind) (b : Byte) :
    memBytes (s.setSeq q k b) = memBytes s := rfl

/-- R179: all that an error writes. -/
theorem raise_eq (e : Err) (s : State) :
    raise e s = (s.setSeq .haltedError e.kind e.info).setDigest (Config.digest (memBytes s)) := rfl

/-- R108: all that the successful halt writes. -/
theorem finishRun_eq (s : State) :
    finishRun s =
      (s.setSeq .haltedSuccess s.errKind s.errOpcode).setDigest (Config.digest (memBytes s)) := rfl

/-- All that stages 1 and 2 write. -/
theorem advance_eq (row : RomEntry) (s : State) :
    advance row s = { s with opcode := row.opcode, pc := s.pc + 1 } := rfl

/-! ### Stack primitives -/

theorem push_cases {w : Word} {s t : State} (h : push w s = .ok t) :
    s.stack.length < Config.stackDepth ∧ t = s.setStack (w :: s.stack) := by
  unfold push at h
  split at h
  · simp at h
  · exact ⟨by omega, by simpa using h.symm⟩

theorem push_error {w : Word} {s : State} {e : Err} (h : push w s = .error e) :
    Config.stackDepth ≤ s.stack.length ∧ e = .stackOverflow := by
  unfold push at h
  split at h
  · exact ⟨‹_›, by simpa using h.symm⟩
  · simp at h

theorem peek_error {n : Nat} {s : State} {e : Err} (h : peek n s = .error e) :
    s.stack.length ≤ n ∧ e = .stackUnderflow := by
  unfold peek at h
  split at h
  · exact ⟨by simpa using ‹s.stack[n]? = none›, by simpa using h.symm⟩
  · simp at h

/-! ### Gas -/

/-- R105: a charge that goes on deducts the whole cost, which the remaining gas covers. -/
theorem charge_cases {cost : Nat} {s t : State} (h : charge cost s = .ok t) :
    cost ≤ s.gasRemaining.toNat ∧
      t = s.setGas (s.gasRemaining - BitVec.ofNat 64 cost) (s.gasConsumed + BitVec.ofNat 64 cost) := by
  unfold charge at h
  split at h
  · simp at h
  · exact ⟨by omega, by simpa using h.symm⟩

theorem charge_error {cost : Nat} {s : State} {e : Err} (h : charge cost s = .error e) :
    s.gasRemaining.toNat < cost ∧ e = .outOfGas := by
  unfold charge at h
  split at h
  · exact ⟨‹_›, by simpa using h.symm⟩
  · simp at h

/-- The remaining gas after a charge the check let pass, as a number. -/
theorem toNat_sub_charge {g : Gas} {cost : Nat} (h : cost ≤ g.toNat) :
    (g - BitVec.ofNat 64 cost).toNat = g.toNat - cost := by
  have hg := g.isLt
  rw [BitVec.toNat_sub, BitVec.toNat_ofNat, Nat.mod_eq_of_lt (by omega : cost < 2 ^ 64)]
  omega

/-- R112, by cases: the write is within the memory, or it grows it. -/
theorem memoryExpansionCost_cases {n : Nat} {s : State} {d : DynGas}
    (h : memoryExpansionCost n s = .ok d) :
    ∃ offset rest, s.stack = offset :: rest ∧
      ceil32 (offset.toNat + n) ≤ Config.memSizeThreshold ∧
      ((ceil32 (offset.toNat + n) ≤ memLen s ∧ d = ⟨0, s.memCostWm⟩) ∨
       (memLen s < ceil32 (offset.toNat + n) ∧
        d = ⟨memCost (ceil32 (offset.toNat + n) / 32) - s.memCostWm.toNat,
             BitVec.ofNat 64 (memCost (ceil32 (offset.toNat + n) / 32))⟩)) := by
  unfold memoryExpansionCost peek at h
  cases hs : s.stack with
  | nil => simp [hs] at h
  | cons offset rest =>
    refine ⟨offset, rest, rfl, ?_⟩
    simp only [hs, List.getElem?_cons_zero] at h
    split at h
    · simp at h
    · split at h
      · exact ⟨by omega, .inl ⟨‹_›, by simpa using h.symm⟩⟩
      · exact ⟨by omega, .inr ⟨by omega, by simpa using h.symm⟩⟩

/-! ### The stages of a step -/

/-- R102 to R107: everything a step of a valid opcode can do. It stops in stage 3, in stage 4, in stage 5, or
completes; the last case is a failure no run reaches. -/
theorem runStages_cases (row : RomEntry) (handler : State → Except Stop State) (s : State) :
    (∃ e, dynamicGas row.dynamicGas (advance row s) = .error e ∧
      runStages row handler s = .next (raise e (advance row s))) ∨
    (∃ d, dynamicGas row.dynamicGas (advance row s) = .ok d ∧
      s.gasRemaining.toNat < row.constantGas + d.cost ∧
      runStages row handler s = .next (raise .outOfGas ((advance row s).setWatermark d.watermark))) ∨
    (∃ d t, dynamicGas row.dynamicGas (advance row s) = .ok d ∧
      row.constantGas + d.cost ≤ s.gasRemaining.toNat ∧
      t = ((advance row s).setWatermark d.watermark).setGas
        (s.gasRemaining - BitVec.ofNat 64 (row.constantGas + d.cost))
        (s.gasConsumed + BitVec.ofNat 64 (row.constantGas + d.cost)) ∧
      ((∃ u, handler t = .ok u ∧ runStages row handler s = .next u) ∨
       (∃ e, handler t = .error (.raised e) ∧ runStages row handler s = .next (raise e t)) ∨
       (∃ f, handler t = .error (.rejected f) ∧ runStages row handler s = .fault f))) := by
  unfold runStages
  cases hd : dynamicGas row.dynamicGas (advance row s) with
  | error e => exact .inl ⟨e, rfl, rfl⟩
  | ok d =>
    cases hc : charge (row.constantGas + d.cost) ((advance row s).setWatermark d.watermark) with
    | error e =>
      obtain ⟨h1, rfl⟩ := charge_error hc
      exact .inr (.inl ⟨d, rfl, h1, by simp only [hc]⟩)
    | ok t =>
      obtain ⟨h1, h2⟩ := charge_cases hc
      refine .inr (.inr ⟨d, t, rfl, h1, h2, ?_⟩)
      simp only [hc, runHandler]
      cases hh : handler t with
      | ok u => exact .inl ⟨u, rfl, rfl⟩
      | error e =>
        cases e with
        | raised e => exact .inr (.inl ⟨e, rfl, rfl⟩)
        | rejected f => exact .inr (.inr ⟨f, rfl, rfl⟩)

/-! ### Handlers -/

theorem binop_cases {f : Word → Word → Word} {s t : State} (h : binop f s = .ok t) :
    ∃ a b rest, s.stack = a :: b :: rest ∧ t = s.setStack (f a b :: rest) := by
  unfold binop at h
  split at h
  · exact ⟨_, _, _, ‹_›, by simpa using h.symm⟩
  · simp at h

theorem binop_error {f : Word → Word → Word} {s : State} {e : Stop} (h : binop f s = .error e) :
    s.stack.length < 2 ∧ e = .raised .stackUnderflow := by
  unfold binop at h
  split at h
  · simp at h
  · rename_i hs
    refine ⟨?_, by simpa using h.symm⟩
    match hs' : s.stack with
    | [] => simp
    | [_] => simp
    | a :: b :: rest => exact absurd hs' (hs a b rest)

theorem pushHandler_cases {imm : Word} {s t : State} (h : pushHandler imm s = .ok t) :
    s.opcode.toNat - 0x5f ≤ s.codeLen - s.pc ∧ s.stack.length < Config.stackDepth ∧
      t = (s.setStack (imm :: s.stack)).setPc (s.pc + (s.opcode.toNat - 0x5f)) := by
  unfold pushHandler at h
  split at h
  · simp at h
  · split at h
    · simp at h
    · rename_i hp
      obtain ⟨h1, rfl⟩ := push_cases hp
      exact ⟨by omega, h1, by simpa using h.symm⟩

theorem pushHandler_error {imm : Word} {s : State} {e : Stop} (h : pushHandler imm s = .error e) :
    (s.codeLen - s.pc < s.opcode.toNat - 0x5f ∧ e = .raised (.notEnoughBytesToRead s.opcode)) ∨
    (Config.stackDepth ≤ s.stack.length ∧ e = .raised .stackOverflow) := by
  unfold pushHandler at h
  split at h
  · exact .inl ⟨‹_›, by simpa using h.symm⟩
  · split at h
    · rename_i hp
      obtain ⟨h1, rfl⟩ := push_error hp
      exact .inr ⟨h1, by simpa using h.symm⟩
    · simp at h

theorem storeHandler_cases {bytesOf : Word → List Byte} {s t : State}
    (h : storeHandler bytesOf s = .ok t) :
    ∃ offset value rest, s.stack = offset :: value :: rest ∧
      memWrite offset.toNat (bytesOf value) (s.setStack rest) = .ok t := by
  unfold storeHandler at h
  split at h
  · split at h
    · simp at h
    · exact ⟨_, _, _, ‹_›, h⟩
  · simp at h

/-! ### The step -/

/-- Everything a step can do: hold, halt at the end of the code, run the stages of one ROM entry, or report bytes
that do not decode. -/
theorem step_cases (s : State) :
    (s.seq ≠ .running ∧ step s = .next s) ∨
    (s.seq = .running ∧ s.codeLen ≤ s.pc ∧ step s = .next (finishRun s)) ∨
    (s.seq = .running ∧ s.pc < s.codeLen ∧
      ((∃ i rest, decode (fetchWindow s) = .ok (i, rest) ∧ step s = exec i s) ∨
       (∃ e, decode (fetchWindow s) = .error e ∧ step s = decodeFailure e s))) := by
  unfold step sequencerPass
  cases hq : s.seq with
  | idle => exact .inl ⟨by simp, rfl⟩
  | haltedSuccess => exact .inl ⟨by simp, rfl⟩
  | haltedError => exact .inl ⟨by simp, rfl⟩
  | running =>
    by_cases hpc : s.codeLen ≤ s.pc
    · exact .inr (.inl ⟨rfl, hpc, by simp [hpc]⟩)
    · refine .inr (.inr ⟨rfl, by omega, ?_⟩)
      simp only [hpc, if_false]
      cases hd : decode (fetchWindow s) with
      | ok p => exact .inl ⟨p.1, p.2, rfl, rfl⟩
      | error e => exact .inr ⟨e, rfl, rfl⟩

@[simp] theorem fetchWindow_length (s : State) :
    (fetchWindow s).length = min Config.maxInstrBytes (s.codeLen - s.pc) := by
  simp [fetchWindow]

end Sys2Proof.Machine
end

