-- ==== Sys2Proof/Laws/PerInstr.lean ====
section
/-! SUPPORT. A law of every instruction as syntax: its encoding begins with its ROM entry's opcode and is as long as the
entry says (30_encoding.md R80, R88). -/

/-- R80, R88: the opcode byte alone fixes the length. -/
def Sys2Proof.Laws.EncodedLength.Statement (i : Sys2Proof.Instr) : Prop :=
  (Sys2Proof.encode i).head? = some (Sys2Proof.romOf i).opcode ∧
  (Sys2Proof.encode i).length = (Sys2Proof.romOf i).length

theorem Sys2Proof.Laws.EncodedLength.add : Sys2Proof.Laws.EncodedLength.Statement .add :=
  ⟨rfl, rfl⟩

theorem Sys2Proof.Laws.EncodedLength.mul : Sys2Proof.Laws.EncodedLength.Statement .mul :=
  ⟨rfl, rfl⟩

theorem Sys2Proof.Laws.EncodedLength.sdiv : Sys2Proof.Laws.EncodedLength.Statement .sdiv :=
  ⟨rfl, rfl⟩

theorem Sys2Proof.Laws.EncodedLength.exp : Sys2Proof.Laws.EncodedLength.Statement .exp :=
  ⟨rfl, rfl⟩

theorem Sys2Proof.Laws.EncodedLength.mstore : Sys2Proof.Laws.EncodedLength.Statement .mstore :=
  ⟨rfl, rfl⟩

theorem Sys2Proof.Laws.EncodedLength.mstore8 : Sys2Proof.Laws.EncodedLength.Statement .mstore8 :=
  ⟨rfl, rfl⟩

theorem Sys2Proof.Laws.EncodedLength.push1 (imm : Sys2Proof.Word) :
    Sys2Proof.Laws.EncodedLength.Statement (.push1 imm) :=
  ⟨rfl, by simp [Sys2Proof.encode, Sys2Proof.romOf, Sys2Proof.romPush1]⟩

theorem Sys2Proof.Laws.EncodedLength.push2 (imm : Sys2Proof.Word) :
    Sys2Proof.Laws.EncodedLength.Statement (.push2 imm) :=
  ⟨rfl, by simp [Sys2Proof.encode, Sys2Proof.romOf, Sys2Proof.romPush2]⟩

theorem Sys2Proof.Laws.EncodedLength.push3 (imm : Sys2Proof.Word) :
    Sys2Proof.Laws.EncodedLength.Statement (.push3 imm) :=
  ⟨rfl, by simp [Sys2Proof.encode, Sys2Proof.romOf, Sys2Proof.romPush3]⟩

theorem Sys2Proof.Laws.EncodedLength.push32 (imm : Sys2Proof.Word) :
    Sys2Proof.Laws.EncodedLength.Statement (.push32 imm) :=
  ⟨rfl, by simp [Sys2Proof.encode, Sys2Proof.romOf, Sys2Proof.romPush32]⟩
end

