-- ==== Sys2Proof/Laws/Step.lean ====
section
/-! SUPPORT. What a step of a run can do, said once over the ten instructions. -/

namespace Sys2Proof.Machine

/-- The ROM entry and the handler of a meaning, by the three handler shapes the instructions share. -/
inductive MeaningOf : RomEntry → (State → Except Stop State) → Prop where
  | alu (row : RomEntry) (f : Word → Word → Word) (h : row ∈ [romAdd, romMul, romSdiv, romExp]) :
      MeaningOf row (binop f)
  | push (row : RomEntry) (imm : Word) (h : row ∈ [romPush1, romPush2, romPush3, romPush32]) :
      MeaningOf row (pushHandler imm)
  | store32 : MeaningOf romMstore (storeHandler wordBytes)
  | store1 : MeaningOf romMstore8 (storeHandler (fun v => [lowByte v]))

/-- Every arm of `exec` runs the stages of its ROM entry with one of the three handler shapes. -/
theorem exec_meaning (i : Instr) :
    ∃ h, MeaningOf (romOf i) h ∧ ∀ s, exec i s = runStages (romOf i) h s := by
  cases i with
  | add => exact ⟨_, .alu _ addWords (by simp [romOf]), fun _ => rfl⟩
  | mul => exact ⟨_, .alu _ mulWords (by simp [romOf]), fun _ => rfl⟩
  | sdiv => exact ⟨_, .alu _ sdivWords (by simp [romOf]), fun _ => rfl⟩
  | exp => exact ⟨_, .alu _ expWords (by simp [romOf]), fun _ => rfl⟩
  | mstore => exact ⟨_, .store32, fun _ => rfl⟩
  | mstore8 => exact ⟨_, .store1, fun _ => rfl⟩
  | push1 imm => exact ⟨_, .push _ imm (by simp [romOf]), fun _ => rfl⟩
  | push2 imm => exact ⟨_, .push _ imm (by simp [romOf]), fun _ => rfl⟩
  | push3 imm => exact ⟨_, .push _ imm (by simp [romOf]), fun _ => rfl⟩
  | push32 imm => exact ⟨_, .push _ imm (by simp [romOf]), fun _ => rfl⟩

/-- A PUSH decodes to its instruction or is truncated; the Overflow condition is never met. -/
theorem decodePush_cases (row : RomEntry) (make : Word → Instr) (rest : List Byte)
    (h : row.length - 1 ≤ 32) :
    (∃ imm tl, decodePush row make rest = .ok (make imm, tl)) ∨
      decodePush row make rest = .error (.truncated row) := by
  unfold decodePush
  split
  · exact .inr rfl
  · rw [wordFromBytes_of_length_le (by simp only [List.length_take]; omega)]
    exact .inl ⟨_, _, rfl⟩

/-- What decodes has the ROM entry of its first byte. -/
theorem decode_cases (op : Byte) (rest : List Byte) :
    (rom op = none ∧ decode (op :: rest) = .error (.invalidOpcode op)) ∨
    (∃ i tl, rom op = some (romOf i) ∧ decode (op :: rest) = .ok (i, tl)) ∨
    (∃ row, row ∈ [romPush1, romPush2, romPush3, romPush32] ∧ rom op = some row ∧
      decode (op :: rest) = .error (.truncated row)) := by
  have hop : ∀ n, op.toNat = n → op = BitVec.ofNat 8 n := fun n h => by subst h; simp
  have hpush : ∀ (row : RomEntry) (make : Word → Instr),
      row ∈ [romPush1, romPush2, romPush3, romPush32] → (∀ imm, romOf (make imm) = row) →
      rom op = some row → row.length - 1 ≤ 32 → decode (op :: rest) = decodePush row make rest →
      (∃ i tl, rom op = some (romOf i) ∧ decode (op :: rest) = .ok (i, tl)) ∨
      (∃ row, row ∈ [romPush1, romPush2, romPush3, romPush32] ∧ rom op = some row ∧
        decode (op :: rest) = .error (.truncated row)) := by
    intro row make hm hr hs hl hd
    rcases decodePush_cases row make rest hl with ⟨imm, tl, h⟩ | h
    · exact .inl ⟨make imm, tl, by rw [hr, hs], by rw [hd, h]⟩
    · exact .inr ⟨row, hm, hs, by rw [hd, h]⟩
  by_cases hn : op.toNat ∈ [1, 2, 5, 10, 0x52, 0x53, 0x60, 0x61, 0x62, 0x7f]
  · right
    simp only [List.mem_cons, List.not_mem_nil, or_false] at hn
    rcases hn with h | h | h | h | h | h | h | h | h | h <;> have e := hop _ h <;> subst e
    · exact .inl ⟨.add, rest, rfl, rfl⟩
    · exact .inl ⟨.mul, rest, rfl, rfl⟩
    · exact .inl ⟨.sdiv, rest, rfl, rfl⟩
    · exact .inl ⟨.exp, rest, rfl, rfl⟩
    · exact .inl ⟨.mstore, rest, rfl, rfl⟩
    · exact .inl ⟨.mstore8, rest, rfl, rfl⟩
    · exact hpush romPush1 .push1 (by simp) (fun _ => rfl) rfl (by decide) rfl
    · exact hpush romPush2 .push2 (by simp) (fun _ => rfl) rfl (by decide) rfl
    · exact hpush romPush3 .push3 (by simp) (fun _ => rfl) rfl (by decide) rfl
    · exact hpush romPush32 .push32 (by simp) (fun _ => rfl) rfl (by decide) rfl
  · left
    constructor
    · have key : ∀ op : Byte, op.toNat ∉ [1, 2, 5, 10, 0x52, 0x53, 0x60, 0x61, 0x62, 0x7f] →
          rom op = none := by decide
      exact key op hn
    · simp only [List.mem_cons, List.not_mem_nil, or_false, not_or] at hn
      obtain ⟨h1, h2, h3, h4, h5, h6, h7, h8, h9, h10⟩ := hn
      simp only [decode]

/-- The fetch window of a `pc` within the code begins with the byte at `pc`. -/
theorem fetchWindow_cons {s : State} (h : s.pc < s.codeLen) :
    fetchWindow s = codeAt s s.pc ::
      (List.range (min 33 (s.codeLen - s.pc) - 1)).map (fun k => codeAt s (s.pc + 1 + k)) := by
  have e : min Config.maxInstrBytes (s.codeLen - s.pc) = min 33 (s.codeLen - s.pc) - 1 + 1 := by
    simp only [Config.maxInstrBytes]; omega
  rw [fetchWindow, e, List.range_succ_eq_map, List.map_cons, List.map_map]
  refine congrArg₂ _ rfl (List.map_congr_left fun k _ => ?_)
  simp only [Function.comp_apply, Nat.succ_eq_add_one]
  congr 1; omega

/-- R101 to R107: within the code, a step of a run either reports an unpopulated byte, or runs the stages of the
ROM entry of the byte at `pc`. -/
theorem step_running {s : State} (hq : s.seq = .running) (hpc : s.pc < s.codeLen) :
    (rom (codeAt s s.pc) = none ∧
      step s = .next (raise (.invalidOpcode (codeAt s s.pc)) (s.setOpcode (codeAt s s.pc)))) ∨
    (∃ row h, MeaningOf row h ∧ rom (codeAt s s.pc) = some row ∧ step s = runStages row h s) := by
  have hs : step s = match decode (fetchWindow s) with
      | .ok (i, _) => exec i s
      | .error e => decodeFailure e s := by
    rcases step_cases s with ⟨h, -⟩ | ⟨-, h, -⟩ | ⟨-, -, ⟨i, rest, hd, hs⟩ | ⟨e, hd, hs⟩⟩
    · exact absurd hq h
    · omega
    · rw [hs, hd]
    · rw [hs, hd]
  rw [fetchWindow_cons hpc] at hs
  rcases decode_cases (codeAt s s.pc) ((List.range (min 33 (s.codeLen - s.pc) - 1)).map
    (fun k => codeAt s (s.pc + 1 + k))) with ⟨h1, h2⟩ | ⟨i, tl, h1, h2⟩ | ⟨row, hm, h1, h2⟩
  · exact .inl ⟨h1, by rw [hs, h2]; rfl⟩
  · obtain ⟨h, h3, h4⟩ := exec_meaning i
    exact .inr ⟨_, h, h3, h1, by rw [hs, h2]; exact h4 s⟩
  · exact .inr ⟨row, _, .push row 0 hm, h1, by rw [hs, h2]; rfl⟩

/-- The ROM entry found for a byte has that byte as its opcode. -/
theorem rom_opcode {op : Byte} {row : RomEntry} (h : rom op = some row) : row.opcode = op := by
  have := List.find?_some h
  simpa using this

/-! ### Passes of the loop -/

@[simp] theorem runPasses_zero (s : State) : runPasses 0 s = .next s := rfl

theorem runPasses_succ {s t : State} (k : Nat) (h : step s = .next t) :
    runPasses (k + 1) s = runPasses k t := by
  rw [runPasses, h]

end Sys2Proof.Machine
end

