-- ==== Sys2Proof/Tests/Slice0.lean ====
section
/-! SUPPORT. The session's own tests: decoding of words written out from the spec's encodings, single steps with results
from 95_test_vectors.md, and for each obligation with hypotheses a state that meets them. -/

namespace Sys2Proof.Tests

open Sys2Proof.Machine

set_option maxRecDepth 8000

/-- A run in progress over `code`, with a stack (top first) and that much gas. -/
def running (code : List Byte) (stack : List Word) (gas : Nat) : State :=
  { State.reset with
    code := insertCells [] 0 code
    codeLen := code.length
    stack := stack
    gasLimit := BitVec.ofNat 64 gas
    gasRemaining := BitVec.ofNat 64 gas
    seq := .running }

/-- One field of the state after one step. -/
def after {α : Type} (get : State → α) (s : State) : Option α := (nextState? (step s)).map get

/-! ### Well-formedness -/

theorem test_push1_too_big : Instr.wellFormed (.push1 256) = false := by decide
theorem test_push1_biggest : Instr.wellFormed (.push1 255) = true := by decide
theorem test_push2_too_big : Instr.wellFormed (.push2 65536) = false := by decide
theorem test_push2_biggest : Instr.wellFormed (.push2 65535) = true := by decide
theorem test_push3_too_big : Instr.wellFormed (.push3 0x1000000) = false := by decide
theorem test_push3_biggest : Instr.wellFormed (.push3 0xffffff) = true := by decide

/-! ### Decoding of words written out from R81, R82 and R84 -/

theorem test_decode_add : decode [0b00000001] = .ok (.add, []) := rfl
theorem test_decode_mul : decode [0b00000010] = .ok (.mul, []) := rfl
theorem test_decode_sdiv : decode [0b00000101] = .ok (.sdiv, []) := rfl
theorem test_decode_exp : decode [0b00001010] = .ok (.exp, []) := rfl
theorem test_decode_mstore : decode [0b01010010] = .ok (.mstore, []) := rfl
theorem test_decode_mstore8 : decode [0b01010011] = .ok (.mstore8, []) := rfl
theorem test_decode_push1 : decode [0b01100000, 0b11111111] = .ok (.push1 0xff, []) := rfl
/-- 95_test_vectors.md 2.2: `61 01 00` pushes 0x100. -/
theorem test_decode_push2 : decode [0b01100001, 0x01, 0x00] = .ok (.push2 0x100, []) := rfl
/-- 95_test_vectors.md 2.2: `62 01 02 03` pushes 0x010203; the byte after it is left over. -/
theorem test_decode_push3 : decode [0b01100010, 0x01, 0x02, 0x03, 0x01] = .ok (.push3 0x010203, [0x01]) := rfl
/-- 95_test_vectors.md 2.2: `7f 80 00…00` pushes MinSigned. -/
theorem test_decode_push32 :
    decode (0b01111111 :: 0x80 :: List.replicate 31 0x00) = .ok (.push32 minSigned, []) := rfl
/-- R86: 0x00 is not STOP, 0x5f is not PUSH0, 0x63 is not PUSH4. -/
theorem test_decode_stop : decode [0x00] = .error (.invalidOpcode 0x00) := rfl
theorem test_decode_push0 : decode [0x5f] = .error (.invalidOpcode 0x5f) := rfl
theorem test_decode_push4 : decode [0x63, 0, 0, 0, 0] = .error (.invalidOpcode 0x63) := rfl
theorem test_decode_truncated : decode [0x62, 0x01, 0x02] = .error (.truncated romPush3) := rfl
/-- The first immediate byte of an opcode-table word is bits 15..8. -/
theorem test_table_word_push2 : decodeTableWord 24 0x000161 = some (.push2 0x100) := by decide
theorem test_table_word_push32 : decodeTableWord 264 0x017f = some (.push32 (BitVec.ofNat 256 (2 ^ 248))) := by
  decide

/-! ### withFetchWord -/

theorem test_fetch_word_push1 :
    after State.stack (State.reset.withFetchWord 16 0x0560) = some [5] := by decide
theorem test_fetch_word_add :
    after State.errKind (State.reset.withFetchWord 8 0x01) = some .stackUnderflow := by decide

/-! ### Single steps (95_test_vectors.md) -/

theorem test_add_wraps : after State.stack (running [0x01] [maxWord, 1] 3) = some [0] := by decide
/-- Program P4's last step. -/
theorem test_add_underflow :
    after (fun s => (s.errKind, s.stack, s.gasRemaining, s.pc)) (running [0x01] [1] 97) =
      some (.stackUnderflow, [1], 94, 1) := by decide

theorem test_mul_wraps : after State.stack (running [0x02] [maxWord, maxWord] 5) = some [1] := by decide
theorem test_mul_out_of_gas :
    after (fun s => (s.errKind, s.stack, s.gasRemaining)) (running [0x02] [1, 1] 4) =
      some (.outOfGas, [1, 1], 4) := by decide

/-- −7 ÷ 2 = −3. -/
theorem test_sdiv_truncates :
    after State.stack (running [0x05] [BitVec.ofInt 256 (-7), 2] 5) = some [BitVec.ofInt 256 (-3)] := by decide
/-- −2^255 ÷ −1 wraps. -/
theorem test_sdiv_overflow :
    after State.stack (running [0x05] [minSigned, maxWord] 5) = some [minSigned] := by decide

/-- Program P3a's last step. -/
theorem test_exp_exact_gas :
    after (fun s => (s.stack, s.gasRemaining)) (running [0x0a] [2, 0x100] 110) = some ([0], 0) := by decide
theorem test_exp_value :
    after State.stack (running [0x0a] [3, 200] 60) =
      some [0xc21a937a76f3432ffd73d97e447606b683ecf6f6e4a7ae225bfaff1eaaf8b0a1] := by decide

/-- `[v, 1]`, empty memory: two words, the value at bytes 1 to 32. -/
theorem test_mstore_unaligned :
    after (fun s => (s.mem, s.memWords, s.memCostWm, s.gasRemaining)) (running [0x52] [1, 0x2a00] 9) =
      some ([(31, 0x2a)], 2, 6, 0) := by decide
/-- `[0]`: charged 6, then StackUnderflow; the watermark stays. -/
theorem test_mstore_underflow :
    after (fun s => (s.errKind, s.stack, s.memCostWm, s.gasConsumed)) (running [0x52] [0] 6) =
      some (.stackUnderflow, [0], 3, 6) := by decide

theorem test_mstore8_low_byte :
    after (fun s => (s.mem, s.memWords, s.gasRemaining)) (running [0x53] [5, 0x1234] 6) =
      some ([(5, 0x34)], 1, 0) := by decide
theorem test_mstore8_gas_uint_overflow :
    after (fun s => (s.errKind, s.stack.length, s.gasRemaining)) (running [0x53] [0x1FFFFFFFE0, 7] 6) =
      some (.gasUintOverflow, 2, 6) := by decide

theorem test_push1_step :
    after (fun s => (s.stack, s.pc, s.gasConsumed)) (running [0x60, 0x01] [] 3) = some ([1], 2, 3) := by decide
theorem test_push1_truncated :
    after (fun s => (s.errKind, s.errOpcode, s.gasConsumed, s.pc)) (running [0x60] [] 9) =
      some (.notEnoughBytesToRead, 0x60, 3, 1) := by decide
theorem test_push2_step :
    after (fun s => (s.stack, s.pc)) (running [0x61, 0x60, 0x01] [] 3) = some ([0x6001], 3) := by decide
theorem test_push3_not_sign_extended :
    after (fun s => (s.stack, s.pc)) (running [0x62, 0xff, 0xff, 0xff] [] 3) = some ([0xffffff], 4) := by decide
theorem test_push32_step :
    after (fun s => (s.stack, s.pc)) (running (0x7f :: List.replicate 32 0xff) [] 3) = some ([maxWord], 33) := by
  decide

/-- L1-11: `09` is InvalidOpcode(9), uncharged. -/
theorem test_invalid_opcode :
    after (fun s => (s.errKind, s.errOpcode, s.pc, s.gasConsumed)) (running [0x09] [] 0) =
      some (.invalidOpcode, 0x09, 0, 0) := by decide
theorem test_end_of_code : after State.seq (running [] [] 0) = some .haltedSuccess := by decide

/-! ### Witnesses: a state and operands that meet an obligation's hypotheses, clause by clause -/

/-- A machine whose scratchpad holds one word only, and whose code space holds four bytes. -/
def small (s : State) : State :=
  { s with params := { codeBytesMax := some 4, pcBits := some 3, memBytesMax := 32 } }

/-- A full stack. -/
def full : List Word := List.replicate 1024 7

theorem full_length : full.length = 1024 := List.length_replicate

theorem witness_DecodeEncodeRoundTrip : Instr.wellFormed (.push1 255) = true := by decide

theorem witness_DecodedBytesAreTheEncoding :
    decode [0x61, 0xff, 0xff, 0x01] = .ok (.push2 0xffff, [0x01]) := rfl

theorem witness_StepRunsDecodedInstruction :
    (running [0x60, 0x05] [] 3).seq = .running ∧
    (running [0x60, 0x05] [] 3).pc < (running [0x60, 0x05] [] 3).codeLen ∧
    decode (fetchWindow (running [0x60, 0x05] [] 3)) = .ok (.push1 5, []) := ⟨rfl, by decide, rfl⟩

theorem witness_EndOfCodeHaltsWithSuccess :
    (running [] [] 0).seq = .running ∧ (running [] [] 0).codeLen ≤ (running [] [] 0).pc := by decide

theorem witness_NotRunningHoldsRegisters :
    State.reset.seq ≠ .running ∧ HostAct.writeCodeLen 1 ≠ .reset ∧ HostAct.writeCodeLen 1 ≠ .writeStart true ∧
    hostAct (.writeCodeLen 1) State.reset = .next { State.reset with codeLen := 1 } :=
  ⟨by decide, by decide, by decide, rfl⟩

theorem witness_InvalidOpcodeHaltsUncharged :
    (running [0x09] [] 0).seq = .running ∧ (running [0x09] [] 0).pc < (running [0x09] [] 0).codeLen ∧
    rom (codeAt (running [0x09] [] 0) (running [0x09] [] 0).pc) = none := by decide

theorem witness_EveryRunHalts : (running [0x01] [] 0).seq = .running := rfl

theorem witness_ChargeDeductsOrRaises_refused : (running [] [] 4).gasRemaining.toNat < 5 := by decide
theorem witness_ChargeDeductsOrRaises_charged : 5 ≤ (running [] [] 5).gasRemaining.toNat := by decide
theorem witness_ChargeDeductsOrRaises_step_charged :
    dynamicGas (romOf .exp).dynamicGas (advance (romOf .exp) (running [] [2, 256] 110)) = .ok ⟨100, 0⟩ ∧
    (romOf .exp).constantGas + 100 ≤ (running [] [2, 256] 110).gasRemaining.toNat := ⟨rfl, by decide⟩
theorem witness_ChargeDeductsOrRaises_step_refused :
    dynamicGas (romOf .exp).dynamicGas (advance (romOf .exp) (running [] [2, 256] 109)) = .ok ⟨100, 0⟩ ∧
    (running [] [2, 256] 109).gasRemaining.toNat < (romOf .exp).constantGas + 100 := ⟨rfl, by decide⟩

theorem witness_GasOnlyMovesToConsumed :
    (running [0x60, 0x05] [] 3).gasConsumed.toNat + (running [0x60, 0x05] [] 3).gasRemaining.toNat =
      (running [0x60, 0x05] [] 3).gasLimit.toNat ∧
    (nextState? (runPasses 2 (running [0x60, 0x05] [] 3))).isSome = true := by decide

theorem witness_ByteLengthCountsBytes : (1 : Word) ≠ 0 ∧ maxWord ≠ 0 := by decide

theorem witness_ExpGasFollowsExponentLength_short : (running [] [2] 0).stack.length < 2 := by decide
theorem witness_ExpGasFollowsExponentLength : (running [] [2, 0] 0).stack = 2 :: 0 :: [] := rfl

theorem witness_ExtraGasChangesNothingElse :
    (running [0x01] [1, 2] 3).gasRemaining.toNat + (2 ^ 64 - 4) < 2 ^ 64 ∧
    (nextState? (step (running [0x01] [1, 2] 3))).map State.errKind = some .none := by decide

theorem witness_StackPrimitives_full : (running [] full 0).stack.length = 1024 := full_length
theorem witness_StackPrimitives_room : (running [] full.tail 0).stack.length < 1024 := by
  show full.tail.length < 1024
  rw [List.length_tail, full_length]
  decide
theorem witness_StackPrimitives_empty : (running [] [] 0).stack = [] := rfl
theorem witness_StackPrimitives_one : (running [] [7] 0).stack ≠ [] := by decide
theorem witness_StackPrimitives_peek_too_deep : (running [] [7] 0).stack.length ≤ 1 := by decide
theorem witness_StackPrimitives_peek : 0 < (running [] [7] 0).stack.length := by decide

theorem witness_AddWrapsModulo :
    (running [] [maxWord, 1] 3).stack = maxWord :: 1 :: [] ∧ 3 ≤ (running [] [maxWord, 1] 3).gasRemaining.toNat :=
  ⟨rfl, by decide⟩
theorem witness_AddWrapsModulo_out_of_gas : (running [] [] 2).gasRemaining.toNat < 3 := by decide
theorem witness_AddWrapsModulo_underflow :
    3 ≤ (running [] [1] 3).gasRemaining.toNat ∧ (running [] [1] 3).stack.length < 2 := by decide

theorem witness_MulWrapsModulo :
    (running [] [maxWord, 2] 5).stack = maxWord :: 2 :: [] ∧ 5 ≤ (running [] [maxWord, 2] 5).gasRemaining.toNat :=
  ⟨rfl, by decide⟩
theorem witness_MulWrapsModulo_out_of_gas : (running [] [] 4).gasRemaining.toNat < 5 := by decide
theorem witness_MulWrapsModulo_underflow :
    5 ≤ (running [] [1] 5).gasRemaining.toNat ∧ (running [] [1] 5).stack.length < 2 := by decide

theorem witness_SdivTruncatesTowardZero :
    (running [] [minSigned, maxWord] 5).stack = minSigned :: maxWord :: [] ∧
    5 ≤ (running [] [minSigned, maxWord] 5).gasRemaining.toNat := ⟨rfl, by decide⟩
theorem witness_SdivTruncatesTowardZero_out_of_gas : (running [] [1, 0] 4).gasRemaining.toNat < 5 := by decide
theorem witness_SdivTruncatesTowardZero_underflow :
    5 ≤ (running [] [] 5).gasRemaining.toNat ∧ (running [] [] 5).stack.length < 2 := by decide

theorem witness_ExpIsThePowerModulo_underflow : (running [] [2] 0).stack.length < 2 := by decide
theorem witness_ExpIsThePowerModulo :
    (running [] [0, 0] 10).stack = 0 :: 0 :: [] ∧
    10 + 50 * byteLength 0 ≤ (running [] [0, 0] 10).gasRemaining.toNat := ⟨rfl, by decide⟩
theorem witness_ExpIsThePowerModulo_out_of_gas :
    (running [] [1, maxWord] 1609).stack = 1 :: maxWord :: [] ∧
    (running [] [1, maxWord] 1609).gasRemaining.toNat < 10 + 50 * byteLength maxWord := ⟨rfl, by decide⟩

theorem witness_PushCompletesOrHalts :
    3 ≤ (running [0x60, 0xff] [] 3).gasRemaining.toNat ∧
    1 ≤ (running [0x60, 0xff] [] 3).codeLen - ((running [0x60, 0xff] [] 3).pc + 1) ∧
    (running [0x60, 0xff] [] 3).stack.length < 1024 := by decide
theorem witness_PushCompletesOrHalts_out_of_gas : (running [0x60] [] 2).gasRemaining.toNat < 3 := by decide
theorem witness_PushCompletesOrHalts_truncated :
    3 ≤ (running [0x61, 0xff] [] 3).gasRemaining.toNat ∧
    (running [0x61, 0xff] [] 3).codeLen - ((running [0x61, 0xff] [] 3).pc + 1) < 2 := by decide
theorem witness_PushCompletesOrHalts_full :
    3 ≤ (running [0x60, 0xff] full 3).gasRemaining.toNat ∧
    1 ≤ (running [0x60, 0xff] full 3).codeLen - ((running [0x60, 0xff] full 3).pc + 1) ∧
    (running [0x60, 0xff] full 3).stack.length = 1024 := ⟨by decide, by decide, full_length⟩

/-- The hypotheses every clause of `PushReadsItsImmediateFromCode` shares. -/
abbrev AtPush (op : Byte) (s : State) : Prop :=
  s.seq = .running ∧ s.pc < s.codeLen ∧ codeAt s s.pc = op

theorem witness_PushReadsItsImmediateFromCode :
    AtPush 0x62 (running [0x62, 1, 2, 3] [] 3) ∧ 3 ≤ (running [0x62, 1, 2, 3] [] 3).gasRemaining.toNat ∧
    (running [0x62, 1, 2, 3] [] 3).pc + 1 + 3 ≤ (running [0x62, 1, 2, 3] [] 3).codeLen ∧
    (running [0x62, 1, 2, 3] [] 3).stack.length < 1024 := by decide
theorem witness_PushReadsItsImmediateFromCode_out_of_gas :
    AtPush 0x60 (running [0x60] [] 2) ∧ (running [0x60] [] 2).gasRemaining.toNat < 3 := by decide
theorem witness_PushReadsItsImmediateFromCode_truncated :
    AtPush 0x61 (running [0x61, 1] [] 3) ∧ 3 ≤ (running [0x61, 1] [] 3).gasRemaining.toNat ∧
    (running [0x61, 1] [] 3).codeLen < (running [0x61, 1] [] 3).pc + 1 + 2 := by decide
theorem witness_PushReadsItsImmediateFromCode_full :
    AtPush 0x60 (running [0x60, 1] full 3) ∧ 3 ≤ (running [0x60, 1] full 3).gasRemaining.toNat ∧
    (running [0x60, 1] full 3).pc + 1 + 1 ≤ (running [0x60, 1] full 3).codeLen ∧
    (running [0x60, 1] full 3).stack.length = 1024 := ⟨⟨rfl, by decide, rfl⟩, by decide, by decide, full_length⟩

theorem witness_CeilIsTheLeastMultiple : 64 % 32 = 0 ∧ 33 ≤ 64 := by decide

/-- The largest offset MSTORE accepts, with the reference capacity and exactly the gas the rule asks for. -/
theorem witness_MstoreStoresTheWord :
    (running [] [0x1FFFFFFFC0, 7] 36028809887088640).stack = 0x1FFFFFFFC0 :: 7 :: [] ∧
    (0x1FFFFFFFC0 : Word).toNat ≤ 0x1FFFFFFFC0 ∧
    storeLen (0x1FFFFFFFC0 : Word).toNat 32 ≤ (running [] [] 0).params.memBytesMax ∧
    3 + storeGas (0x1FFFFFFFC0 : Word).toNat 32 (running [] [0x1FFFFFFFC0, 7] 36028809887088640) ≤
      (running [] [0x1FFFFFFFC0, 7] 36028809887088640).gasRemaining.toNat :=
  ⟨rfl, by decide, by decide, by decide⟩
theorem witness_MstoreStoresTheWord_bytes : (31 < 32) ∧ (0 < (1 : Word).toNat ∨ (1 : Word).toNat + 32 ≤ 0) := by
  decide

theorem witness_Mstore8StoresTheLowByte :
    (running [] [0x1FFFFFFFDF, 7] 36028809887088640).stack = 0x1FFFFFFFDF :: 7 :: [] ∧
    (0x1FFFFFFFDF : Word).toNat ≤ 0x1FFFFFFFDF ∧
    storeLen (0x1FFFFFFFDF : Word).toNat 1 ≤ (running [] [] 0).params.memBytesMax ∧
    3 + storeGas (0x1FFFFFFFDF : Word).toNat 1 (running [] [0x1FFFFFFFDF, 7] 36028809887088640) ≤
      (running [] [0x1FFFFFFFDF, 7] 36028809887088640).gasRemaining.toNat :=
  ⟨rfl, by decide, by decide, by decide⟩

theorem witness_StoreErrorsInOrder_empty : (running [] [] 0).stack = [] := rfl
theorem witness_StoreErrorsInOrder_gas_uint_overflow :
    (running [] [0x1FFFFFFFC1] 0).stack = 0x1FFFFFFFC1 :: [] ∧ 0x1FFFFFFFC0 < (0x1FFFFFFFC1 : Word).toNat :=
  ⟨rfl, by decide⟩
theorem witness_StoreErrorsInOrder_out_of_gas :
    (running [] [0] 5).stack = 0 :: [] ∧ (0 : Word).toNat ≤ 0x1FFFFFFFC0 ∧
    (running [] [0] 5).gasRemaining.toNat < 3 + storeGas (0 : Word).toNat 32 (running [] [0] 5) :=
  ⟨rfl, by decide, by decide⟩
theorem witness_StoreErrorsInOrder_underflow :
    (running [] [0] 6).stack = 0 :: [] ∧ (0 : Word).toNat ≤ 0x1FFFFFFFC0 ∧
    3 + storeGas (0 : Word).toNat 32 (running [] [0] 6) ≤ (running [] [0] 6).gasRemaining.toNat :=
  ⟨rfl, by decide, by decide⟩
theorem witness_StoreErrorsInOrder_mstore8 :
    (running [] [0x1FFFFFFFE0] 0).stack = 0x1FFFFFFFE0 :: [] ∧ 0x1FFFFFFFDF < (0x1FFFFFFFE0 : Word).toNat :=
  ⟨rfl, by decide⟩
theorem witness_StoreErrorsInOrder_capacity :
    (small (running [] [1, 7] 9)).stack = 1 :: [7] ∧ ([7] : List Word) ≠ [] ∧ (1 : Word).toNat ≤ 0x1FFFFFFFC0 ∧
    3 + storeGas (1 : Word).toNat 32 (small (running [] [1, 7] 9)) ≤
      (small (running [] [1, 7] 9)).gasRemaining.toNat ∧
    (small (running [] [1, 7] 9)).params.memBytesMax < storeLen (1 : Word).toNat 32 :=
  ⟨rfl, by decide, by decide, by decide, by decide⟩

/-- A step that writes the memory. -/
theorem witness_MemoryOnlyGrowsByStores :
    (nextState? (step (running [0x53] [5, 1] 6))).map State.memWords = some 1 ∧
    (running [0x53] [5, 1] 6).memWords = 0 := by decide

theorem witness_MemoryBytesInfluenceNothing :
    (nextState? (step (running [0x53] [5, 1] 6))).isSome = true := by decide

theorem witness_ErrorsLeaveNoPartialEffect :
    (running [0x01] [1] 3).seq = .running ∧
    (nextState? (step (running [0x01] [1] 3))).map State.seq = some .haltedError := by decide

theorem witness_OutOfGasExactlyWhenCostExceeds :
    (running [] [1, 2] 2).errKind = .none ∧
    (nextState? (exec .add (running [] [1, 2] 2))).map State.errKind = some .outOfGas := by decide

/-- A state of a run that meets the invariant. -/
theorem witness_Inv : Inv (running [0x53, 0x01] [5, 1] 6) :=
  ⟨by decide, by decide, by decide, by decide, by decide, by decide, by decide, by decide⟩

theorem witness_StepKeepsInvariant :
    Inv (running [0x53, 0x01] [5, 1] 6) ∧
    (nextState? (step (running [0x53, 0x01] [5, 1] 6))).map State.pc = some 1 := ⟨witness_Inv, by decide⟩

theorem witness_HostActionsKeepInvariant :
    Inv (running [0x53, 0x01] [5, 1] 6) ∧
    (nextState? (hostAct .reset (running [0x53, 0x01] [5, 1] 6))).map State.pc = some 0 :=
  ⟨witness_Inv, by decide⟩

theorem witness_StepNeverWritesItsInputs :
    (nextState? (step (running [0x01] [1, 2] 3))).map State.codeLen = some 1 := by decide

theorem witness_WatermarkNeverDecreases :
    Inv (running [0x53, 0x01] [5, 1] 6) ∧ (running [0x53, 0x01] [5, 1] 6).seq = .running ∧
    (nextState? (step (running [0x53, 0x01] [5, 1] 6))).map State.seq = some .running :=
  ⟨witness_Inv, by decide, by decide⟩

theorem witness_PcMovesForwardWithinCode :
    (running [0x01] [1, 2] 3).seq = .running ∧ (running [0x01] [1, 2] 3).pc ≤ (running [0x01] [1, 2] 3).codeLen ∧
    (nextState? (step (running [0x01] [1, 2] 3))).map State.pc = some 1 := by decide

theorem witness_StartBeginsAFreshRun : State.reset.seq ≠ .running := by decide

theorem witness_HostCannotTouchARun :
    (running [0x01] [] 0).seq = .running ∧ HostAct.writeStart true ≠ .reset := by decide

theorem witness_LaunchLoadsTheProgram :
    (small State.reset).seq ≠ .running ∧
    (small State.reset).params.admitsCodeLen ([0x60, 0x01, 0x60, 0x02] : List Byte).length = true := by decide

/-- The launch of an MSTORE with no gas: 95_test_vectors.md 2.4 says StackUnderflow, not OutOfGas. -/
theorem witness_ZeroGasLimitRunsNoInstruction :
    State.reset.seq ≠ .running ∧ State.reset.params.admitsCodeLen ([0x52] : List Byte).length = true ∧
    ((nextState? (hostActs (launchActs [0x52] 0) State.reset)).bind
      (after fun t => (t.errKind, t.gasConsumed))) = some (.stackUnderflow, 0) := by decide
/-- The launch of no code, and of a PUSH, with no gas. -/
theorem witness_ZeroGasLimitRunsNoInstruction_empty :
    ((nextState? (hostActs (launchActs [] 0) State.reset)).bind (after State.seq)) = some .haltedSuccess := by
  decide
theorem witness_ZeroGasLimitRunsNoInstruction_push :
    ((nextState? (hostActs (launchActs [0x60, 0x01] 0) State.reset)).bind (after State.errKind)) =
      some .outOfGas := by decide

theorem witness_ExecuteReturnsAResult :
    State.reset.seq ≠ .running ∧ State.reset.params.admitsCodeLen ([] : List Byte).length = true := by decide

theorem witness_CodeTooLongIsRefused :
    (small State.reset).seq ≠ .running ∧ (small State.reset).params.admitsCodeLen 5 = false := by decide

end Sys2Proof.Tests
end

section
/-! What each stack primitive answers, one equation per case (R25 to R27), and the obligation O16 about the three. -/

namespace Sys2Proof.Machine

theorem push_of_full {w : Word} {s : State} (h : Config.stackDepth ≤ s.stack.length) :
    push w s = .error .stackOverflow := if_pos h

theorem push_of_room {w : Word} {s : State} (h : s.stack.length < Config.stackDepth) :
    push w s = .ok (s.setStack (w :: s.stack)) := if_neg (Nat.not_le.mpr h)

theorem pop_of_nil {s : State} (h : s.stack = []) : pop s = .error .stackUnderflow := by
  simp only [pop, h]

theorem pop_of_cons {s : State} {v : Word} {rest : List Word} (h : s.stack = v :: rest) :
    pop s = .ok (v, s.setStack rest) := by
  simp only [pop, h]

theorem peek_of_length_le {n : Nat} {s : State} (h : s.stack.length ≤ n) :
    peek n s = .error .stackUnderflow := by
  simp only [peek, List.getElem?_eq_none h]

theorem peek_of_lt {n : Nat} {s : State} (h : n < s.stack.length) : peek n s = .ok s.stack[n] := by
  simp only [peek, List.getElem?_eq_getElem h]

/-- R27: the word `n` places below the top is entry `STACK_SIZE - 1 - n`, counted from the bottom. -/
theorem getElem?_reverse_eq_word_below_top {n : Nat} {stack : List Word} (h : n < stack.length) :
    stack.reverse[stack.length - 1 - n]? = some stack[n] := by
  have hback : stack.length - 1 - (stack.length - 1 - n) = n := by omega
  rw [List.getElem?_reverse (by omega), hback, List.getElem?_eq_getElem h]

/-- Settles O16: the model keeps the stack top first, so the bottom-first entries of R25 to R27 are its reverse, and
each clause is the primitive's equation for that case. -/
theorem stackPrimitives : Obligations.StackPrimitives := by
  unfold Obligations.StackPrimitives
  intro s w n
  refine ⟨fun hfull => push_of_full hfull.ge, fun hroom => ?push, pop_of_nil, fun hne => ?pop,
    peek_of_length_le, fun hn => ⟨_, peek_of_lt hn, getElem?_reverse_eq_word_below_top hn⟩⟩
  case push => exact ⟨_, push_of_room hroom, rfl, List.reverse_cons⟩
  case pop =>
    obtain ⟨v, rest, hs⟩ := List.exists_cons_of_ne_nil hne
    refine ⟨v, _, pop_of_cons hs, rfl, ?_⟩
    rw [hs, List.reverse_cons, State.setStack_stack]

end Sys2Proof.Machine
end

section
/-! The limit checker (R105) and EXP's gas function (R114), one equation per case, with the obligation O14. -/

namespace Sys2Proof.Machine

theorem charge_of_lt {cost : Nat} {s : State} (h : s.gasRemaining.toNat < cost) :
    charge cost s = .error .outOfGas := if_pos h

theorem charge_of_le {cost : Nat} {s : State} (h : cost ≤ s.gasRemaining.toNat) :
    charge cost s =
      .ok (s.setGas (s.gasRemaining - BitVec.ofNat 64 cost) (s.gasConsumed + BitVec.ofNat 64 cost)) :=
  if_neg (Nat.not_lt.mpr h)

theorem expGasCost_of_short {s : State} (h : s.stack.length < 2) :
    expGasCost s = .error .stackUnderflow := by
  rw [expGasCost, peek_of_length_le (Nat.le_of_lt_succ h)]

theorem expGasCost_of_cons {s : State} {a b : Word} {rest : List Word} (h : s.stack = a :: b :: rest) :
    expGasCost s = .ok ⟨50 * byteLength b, s.memCostWm⟩ := by
  simp only [expGasCost, peek, h, List.getElem?_cons_succ, List.getElem?_cons_zero]

theorem bitLen_le (v : Word) : bitLen v ≤ 256 := by
  unfold bitLen
  split
  · exact Nat.zero_le _
  · next hv => exact (Nat.log2_lt hv).mpr v.isLt

theorem byteLength_le (v : Word) : byteLength v ≤ 32 := by
  have hbits := bitLen_le v
  unfold byteLength
  omega

/-- Settles O14: the two equations of the gas function, and the bound because a word has at most 32 bytes. -/
theorem expGasFollowsExponentLength : Obligations.ExpGasFollowsExponentLength := by
  unfold Obligations.ExpGasFollowsExponentLength
  exact fun s => ⟨expGasCost_of_short,
    fun _ b _ hs => ⟨expGasCost_of_cons hs, Nat.mul_le_mul_left 50 (byteLength_le b)⟩⟩

end Sys2Proof.Machine
end

section
/-! The steps that run no instruction: of a block that is not running (R193), and at the end of the code (R108), with
the obligation O6. -/

namespace Sys2Proof.Machine

theorem step_of_not_running {s : State} (hq : s.seq ≠ .running) : step s = .next s := by
  obtain ⟨-, hstep⟩ | ⟨hrun, -⟩ | ⟨hrun, -⟩ := step_cases s
  · exact hstep
  · exact absurd hrun hq
  · exact absurd hrun hq

theorem step_at_end_of_code {s : State} (hq : s.seq = .running) (hpc : s.codeLen ≤ s.pc) :
    step s = .next (finishRun s) := by
  obtain ⟨hne, -⟩ | ⟨-, -, hstep⟩ | ⟨-, hlt, -⟩ := step_cases s
  · exact absurd hq hne
  · exact hstep
  · exact absurd hpc (Nat.not_le.mpr hlt)

/-- Settles O6: of the cases of a step only the successful halt is left, and `finishRun` writes the two registers. -/
theorem endOfCodeHaltsWithSuccess : Obligations.EndOfCodeHaltsWithSuccess := by
  unfold Obligations.EndOfCodeHaltsWithSuccess
  intro s hq hpc
  rw [step_at_end_of_code hq hpc, finishRun_eq]
  rfl

end Sys2Proof.Machine
end

section
/-! How gas moves. Charging is the only operation that writes the counters, and it moves one cost from
`GAS_REMAINING` to `GAS_CONSUMED`; so everything from a handler to a whole run moves some cost. The obligations O11 and
O12 are about what a step and a run move. -/

namespace Sys2Proof.Machine

/-- Between `s` and `t`, `cost` gas that `s` had left is moved to the consumed gas, whose register wraps at 64 bits. -/
structure GasMoved (cost : Nat) (s t : State) : Prop where
  covered : cost ≤ s.gasRemaining.toNat
  remaining : t.gasRemaining.toNat = s.gasRemaining.toNat - cost
  consumed : t.gasConsumed.toNat = (s.gasConsumed.toNat + cost) % 2 ^ 64
  limit : t.gasLimit = s.gasLimit

namespace GasMoved

theorem of_same_registers {s t : State} (hr : t.gasRemaining = s.gasRemaining)
    (hc : t.gasConsumed = s.gasConsumed) (hl : t.gasLimit = s.gasLimit) : GasMoved 0 s t where
  covered := Nat.zero_le _
  remaining := by rw [hr, Nat.sub_zero]
  consumed := by rw [hc, Nat.add_zero, Nat.mod_eq_of_lt s.gasConsumed.isLt]
  limit := hl

theorem refl (s : State) : GasMoved 0 s s := of_same_registers rfl rfl rfl

theorem trans {c d : Nat} {s t u : State} (hst : GasMoved c s t) (htu : GasMoved d t u) :
    GasMoved (c + d) s u where
  covered := by
    have := hst.covered
    have := hst.remaining ▸ htu.covered
    omega
  remaining := by rw [htu.remaining, hst.remaining, Nat.sub_sub]
  consumed := by rw [htu.consumed, hst.consumed, Nat.mod_add_mod, Nat.add_assoc]
  limit := htu.limit.trans hst.limit

/-- R33, R119: gas counters that sum to a limit of 64 bits go on summing to it, since the sum leaves no room for the
consumed gas to wrap. -/
theorem consumed_eq_of_sum {cost : Nat} {s t : State} (h : GasMoved cost s t)
    (hsum : s.gasConsumed.toNat + s.gasRemaining.toNat = s.gasLimit.toNat) :
    t.gasConsumed.toNat = s.gasConsumed.toNat + cost := by
  have hcovered := h.covered
  have hlimit := s.gasLimit.isLt
  rw [h.consumed, Nat.mod_eq_of_lt (by omega)]

end GasMoved

/-- R105: the registers a charge writes. -/
theorem gasMoved_setGas {cost : Nat} {s t : State} (h : cost ≤ s.gasRemaining.toNat)
    (hl : t.gasLimit = s.gasLimit) :
    GasMoved cost s
      (t.setGas (s.gasRemaining - BitVec.ofNat 64 cost) (s.gasConsumed + BitVec.ofNat 64 cost)) where
  covered := h
  remaining := toNat_sub_charge h
  consumed := by
    rw [State.setGas_gasConsumed, BitVec.toNat_add, BitVec.toNat_ofNat, Nat.add_mod_mod]
  limit := hl

/-! ### Handlers -/

theorem memWrite_error {offset : Nat} {bs : List Byte} {s : State} {e : Stop}
    (h : memWrite offset bs s = .error e) : extend (offset + bs.length) s = .error e := by
  unfold memWrite at h
  split at h
  · next hext => rw [hext, h]
  · nomatch h

theorem storeHandler_rejected {bytesOf : Word → List Byte} {s : State} {f : Fault}
    (h : storeHandler bytesOf s = .error (.rejected f)) :
    ∃ offset value rest, s.stack = offset :: value :: rest ∧
      2 ^ 32 ≤ ceil32 (offset.toNat + (bytesOf value).length) / 32 := by
  unfold storeHandler at h
  split at h
  · next offset value rest hs =>
    split at h
    · nomatch h
    · obtain ⟨-, he⟩ | ⟨hbig, -⟩ := extend_error (memWrite_error h)
      · nomatch he
      · exact ⟨offset, value, rest, hs, hbig⟩
  · nomatch h

/-- R58, R178: a store whose gas function answered asks for a size below the threshold, which the memory controller
never rejects. -/
theorem storeHandler_not_rejected {bytesOf : Word → List Byte} {n : Nat} {s t : State} {d : DynGas}
    (hlen : ∀ v, (bytesOf v).length = n) (hd : memoryExpansionCost n s = .ok d) (hstack : t.stack = s.stack)
    (f : Fault) : storeHandler bytesOf t ≠ .error (.rejected f) := by
  intro hrej
  obtain ⟨offset, value, rest, ht, hbig⟩ := storeHandler_rejected hrej
  obtain ⟨offset', rest', hs, hthreshold, -⟩ := memoryExpansionCost_cases hd
  obtain ⟨rfl, -⟩ : offset = offset' ∧ value :: rest = rest' := by
    rw [← List.cons_eq_cons, ← ht, ← hs, hstack]
  rw [hlen] at hbig
  simp only [Config.memSizeThreshold] at hthreshold
  omega

namespace MeaningOf

variable {row : RomEntry} {handler : State → Except Stop State} {s t u : State} {d : DynGas}

/-- R106: no handler writes a gas register. -/
theorem gasMoved_of_ok (hm : MeaningOf row handler) (h : handler t = .ok u) : GasMoved 0 t u := by
  have hstore : ∀ bytesOf, storeHandler bytesOf t = .ok u → GasMoved 0 t u := by
    intro bytesOf h
    obtain ⟨_, _, _, -, hw⟩ := storeHandler_cases h
    rw [memWrite_frame hw]
    exact .of_same_registers rfl rfl rfl
  cases hm with
  | alu =>
    obtain ⟨_, _, _, -, rfl⟩ := binop_cases h
    exact .of_same_registers rfl rfl rfl
  | push =>
    obtain ⟨-, -, rfl⟩ := pushHandler_cases h
    exact .of_same_registers rfl rfl rfl
  | store32 => exact hstore _ h
  | store1 => exact hstore _ h

/-- R178: after a gas function that answered, no handler meets a failure without a code. -/
theorem not_rejected (hm : MeaningOf row handler)
    (hd : dynamicGas row.dynamicGas s = .ok d) (hstack : t.stack = s.stack) (f : Fault) :
    handler t ≠ .error (.rejected f) := by
  cases hm with
  | alu =>
    intro h
    obtain ⟨-, he⟩ := binop_error h
    nomatch he
  | push =>
    intro h
    obtain ⟨-, he⟩ | ⟨-, he⟩ := pushHandler_error h <;> nomatch he
  | store32 => exact storeHandler_not_rejected (n := 32) (fun _ => by simp [wordBytes]) hd hstack f
  | store1 => exact storeHandler_not_rejected (n := 1) (fun _ => rfl) hd hstack f

/-- Stage 5 answers a state, and moves no gas, whether the handler completes or raises. -/
theorem runHandler_gasMoved (hm : MeaningOf row handler)
    (hd : dynamicGas row.dynamicGas s = .ok d) (hstack : t.stack = s.stack) :
    ∃ u, runHandler handler t = .next u ∧ GasMoved 0 t u := by
  unfold runHandler
  cases hh : handler t with
  | ok u => exact ⟨u, rfl, hm.gasMoved_of_ok hh⟩
  | error stop =>
    cases stop with
    | raised e => exact ⟨_, rfl, GasMoved.of_same_registers rfl rfl rfl⟩
    | rejected f => exact absurd hh (hm.not_rejected hd hstack f)

end MeaningOf

/-! ### The stages, by what the gas function and the limit checker answer -/

/-- The state at the end of stage 4 of a step whose gas function answered `d` and whose charge went through. -/
def chargedState (row : RomEntry) (d : DynGas) (s : State) : State :=
  ((advance row s).setWatermark d.watermark).setGas
    (s.gasRemaining - BitVec.ofNat 64 (row.constantGas + d.cost))
    (s.gasConsumed + BitVec.ofNat 64 (row.constantGas + d.cost))

section Stages

variable {row : RomEntry} {handler : State → Except Stop State} {s : State} {d : DynGas}

theorem runStages_of_gas_error {e : Err} (hd : dynamicGas row.dynamicGas (advance row s) = .error e) :
    runStages row handler s = .next (raise e (advance row s)) := by
  simp only [runStages, hd]

theorem runStages_of_out_of_gas (hd : dynamicGas row.dynamicGas (advance row s) = .ok d)
    (h : s.gasRemaining.toNat < row.constantGas + d.cost) :
    runStages row handler s = .next (raise .outOfGas ((advance row s).setWatermark d.watermark)) := by
  have hcharge : charge _ ((advance row s).setWatermark d.watermark) = _ := charge_of_lt h
  simp only [runStages, hd, hcharge]

theorem runStages_of_covered (hd : dynamicGas row.dynamicGas (advance row s) = .ok d)
    (h : row.constantGas + d.cost ≤ s.gasRemaining.toNat) :
    runStages row handler s = runHandler handler (chargedState row d s) := by
  have hcharge : charge _ ((advance row s).setWatermark d.watermark) = _ := charge_of_le h
  simp only [runStages, hd, hcharge]
  rfl

/-- R105: a step whose cost the remaining gas covers moves exactly that cost. -/
theorem MeaningOf.runStages_moves_cost (hm : MeaningOf row handler)
    (hd : dynamicGas row.dynamicGas (advance row s) = .ok d)
    (h : row.constantGas + d.cost ≤ s.gasRemaining.toNat) :
    ∃ t, runStages row handler s = .next t ∧ GasMoved (row.constantGas + d.cost) s t := by
  have hcharged : GasMoved _ s (chargedState row d s) := gasMoved_setGas h rfl
  obtain ⟨u, hu, hmoved⟩ := hm.runHandler_gasMoved (t := chargedState row d s) hd rfl
  exact ⟨u, (runStages_of_covered hd h).trans hu, hcharged.trans hmoved⟩

/-- The stages answer a state and move some cost: none where stage 3 or stage 4 raises. -/
theorem MeaningOf.runStages_gasMoved (hm : MeaningOf row handler) (s : State) :
    ∃ cost t, runStages row handler s = .next t ∧ GasMoved cost s t := by
  cases hd : dynamicGas row.dynamicGas (advance row s) with
  | error e => exact ⟨0, _, runStages_of_gas_error hd, .of_same_registers rfl rfl rfl⟩
  | ok d =>
    rcases Nat.lt_or_ge s.gasRemaining.toNat (row.constantGas + d.cost) with hlt | hle
    · exact ⟨0, _, runStages_of_out_of_gas hd hlt, .of_same_registers rfl rfl rfl⟩
    · exact ⟨_, hm.runStages_moves_cost hd hle⟩

end Stages

/-- What the host sees of an error raised in a state `t` that still has the gas counters and the stack of `s`. -/
theorem raised_raise_of_uncharged {s t : State} (e : Err) (hr : t.gasRemaining = s.gasRemaining)
    (hc : t.gasConsumed = s.gasConsumed) (hs : t.stack = s.stack) :
    Raised e.kind e.info 0 s (raise e t) where
  seq := rfl
  kind := rfl
  info := rfl
  remaining := hr.trans (by simp)
  consumed := hc.trans (by simp)
  stack := hs

/-- Settles O11: the two equations of the limit checker; and an instruction runs the stages of its ROM entry, which
raise where the check fails and otherwise move the cost. -/
theorem chargeDeductsOrRaises : Obligations.ChargeDeductsOrRaises := by
  unfold Obligations.ChargeDeductsOrRaises
  refine ⟨fun cost s => ⟨charge_of_lt, fun hle => ?charged⟩, fun i s d hd => ?instruction⟩
  case charged =>
    have hmoved := gasMoved_setGas hle (rfl : s.gasLimit = s.gasLimit)
    exact ⟨_, charge_of_le hle, rfl, hmoved.remaining, hmoved.consumed⟩
  case instruction =>
    obtain ⟨handler, hm, hexec⟩ := exec_meaning i
    rw [hexec s]
    refine ⟨fun hle => ?_, fun hlt => ?_⟩
    · obtain ⟨t, ht, hmoved⟩ := hm.runStages_moves_cost hd hle
      exact ⟨t, ht, hmoved.remaining, hmoved.consumed⟩
    · exact ⟨_, runStages_of_out_of_gas hd hlt, raised_raise_of_uncharged .outOfGas rfl rfl rfl⟩

/-! ### Steps and runs -/

/-- Every step answers a state, and moves some cost to get there. -/
theorem step_gasMoved (s : State) : ∃ cost t, step s = .next t ∧ GasMoved cost s t := by
  by_cases hq : s.seq = .running
  case neg => exact ⟨0, s, step_of_not_running hq, .refl s⟩
  case pos =>
    rcases Nat.lt_or_ge s.pc s.codeLen with hpc | hpc
    · obtain ⟨-, hstep⟩ | ⟨row, handler, hm, -, hstep⟩ := step_running hq hpc
      · exact ⟨0, _, hstep, .of_same_registers rfl rfl rfl⟩
      · rw [hstep]
        exact hm.runStages_gasMoved s
    · exact ⟨0, _, step_at_end_of_code hq hpc, .of_same_registers rfl rfl rfl⟩

/-- So does every run: the costs of its steps add up. -/
theorem runPasses_gasMoved (n : Nat) (s : State) : ∃ cost t, runPasses n s = .next t ∧ GasMoved cost s t := by
  induction n generalizing s with
  | zero => exact ⟨0, s, runPasses_zero s, .refl s⟩
  | succ n ih =>
    obtain ⟨c, t, hstep, hst⟩ := step_gasMoved s
    obtain ⟨d, u, hrun, htu⟩ := ih t
    exact ⟨c + d, u, (runPasses_succ n hstep).trans hrun, hst.trans htu⟩

/-- Settles O12: a run moves one cost, which the remaining gas covers and the consumed gas has room for. -/
theorem gasOnlyMovesToConsumed : Obligations.GasOnlyMovesToConsumed := by
  unfold Obligations.GasOnlyMovesToConsumed
  intro n s t hsum hrun
  obtain ⟨cost, t', hrun', hmoved⟩ := runPasses_gasMoved n s
  obtain rfl : t' = t := Host.Outcome.next.inj (hrun'.symm.trans hrun)
  have hcovered := hmoved.covered
  rw [hmoved.consumed_eq_of_sum hsum, hmoved.remaining]
  omega

end Sys2Proof.Machine
end

section
/-! The byte-length of a word (R131): the least number of bytes that hold it, and the obligation O13. -/

namespace Sys2Proof.Machine

theorem bitLen_of_ne_zero {v : Word} (h : v ≠ 0) : bitLen v = Nat.log 2 v.toNat + 1 := by
  have hv : v.toNat ≠ 0 := fun h0 => h (BitVec.eq_of_toNat_eq h0)
  rw [bitLen, if_neg hv, Nat.log2_eq_log_two]

theorem bitLen_le_iff (v : Word) (n : Nat) : bitLen v ≤ n ↔ v.toNat < 2 ^ n := by
  unfold bitLen
  split
  · next hv => simp [hv]
  · next hv => rw [Nat.succ_le_iff, Nat.log2_lt hv]

/-- R131: as many bytes as the byte-length says hold the word, and fewer do not. -/
theorem byteLength_le_iff (v : Word) (k : Nat) : byteLength v ≤ k ↔ v.toNat < 256 ^ k := by
  have hbits : byteLength v ≤ k ↔ bitLen v ≤ 8 * k := by
    unfold byteLength
    omega
  rw [hbits, bitLen_le_iff, pow_mul]
  norm_num

theorem byteLength_pos {v : Word} (h : v ≠ 0) : 1 ≤ byteLength v := by
  rw [byteLength, bitLen_of_ne_zero h]
  omega

/-- Settles O13: the byte-length is the least `k` with the word below `256 ^ k`, so one byte less does not hold it;
the formula is the definition's. -/
theorem byteLengthCountsBytes : Obligations.ByteLengthCountsBytes := by
  unfold Obligations.ByteLengthCountsBytes
  refine ⟨rfl, fun v hv => ?_⟩
  have hpos := byteLength_pos hv
  refine ⟨hpos, byteLength_le v, ?one_less, (byteLength_le_iff v _).mp le_rfl, ?formula⟩
  case one_less =>
    have hnot : ¬ byteLength v ≤ byteLength v - 1 := by omega
    rwa [byteLength_le_iff, Nat.not_lt] at hnot
  case formula => rw [byteLength, bitLen_of_ne_zero hv]

end Sys2Proof.Machine
end

section
/-! The ALU instructions (41_alu.md R132): what `binop` and the stages around it answer, one equation per case, for
every ROM entry whose gas function leaves the watermark; then the obligations O17 and O18. -/

namespace Sys2Proof.Machine

section Binop

variable {f : Word → Word → Word} {s : State}

theorem binop_of_cons {a b : Word} {rest : List Word} (h : s.stack = a :: b :: rest) :
    binop f s = .ok (s.setStack (f a b :: rest)) := by
  simp only [binop, h]

theorem binop_of_short (h : s.stack.length < 2) : binop f s = .error (.raised .stackUnderflow) := by
  cases hb : binop f s with
  | ok t =>
    obtain ⟨a, b, rest, hs, -⟩ := binop_cases hb
    simp [hs] at h
  | error e =>
    obtain ⟨-, rfl⟩ := binop_error hb
    rfl

end Binop

/-- R105: the state at the end of stage 4, with the gas counters on natural numbers. -/
theorem chargedState_eq_spent {row : RomEntry} {cost : Nat} {s : State}
    (h : row.constantGas + cost ≤ s.gasRemaining.toNat) :
    chargedState row ⟨cost, s.memCostWm⟩ s = spent row.opcode (row.constantGas + cost) s := by
  have hremaining : s.gasRemaining - BitVec.ofNat 64 (row.constantGas + cost) =
      BitVec.ofNat 64 (s.gasRemaining.toNat - (row.constantGas + cost)) := by
    rw [← toNat_sub_charge h, BitVec.ofNat_toNat, BitVec.setWidth_eq]
  have hconsumed : s.gasConsumed + BitVec.ofNat 64 (row.constantGas + cost) =
      BitVec.ofNat 64 (s.gasConsumed.toNat + (row.constantGas + cost)) := by
    rw [BitVec.ofNat_add s.gasConsumed.toNat, BitVec.ofNat_toNat, BitVec.setWidth_eq]
  rw [chargedState, hremaining, hconsumed]
  rfl

/-- What the host sees of an error raised at the end of stage 4: the cost is charged, the stack is unchanged. -/
theorem raised_raise_spent (e : Err) (op : Byte) (cost : Nat) (s : State) :
    Raised e.kind e.info cost s (raise e (spent op cost s)) :=
  ⟨rfl, rfl, rfl, rfl, rfl, rfl⟩

section Stages

variable {row : RomEntry} {f : Word → Word → Word} {s : State} {cost : Nat}

theorem runStages_binop_of_cons {a b : Word} {rest : List Word} (hs : s.stack = a :: b :: rest)
    (hd : dynamicGas row.dynamicGas (advance row s) = .ok ⟨cost, s.memCostWm⟩)
    (h : row.constantGas + cost ≤ s.gasRemaining.toNat) :
    runStages row (binop f) s =
      .next ((spent row.opcode (row.constantGas + cost) s).setStack (f a b :: rest)) := by
  have hbinop : binop f (spent row.opcode (row.constantGas + cost) s) = _ := binop_of_cons hs
  rw [runStages_of_covered hd h, chargedState_eq_spent h, runHandler, hbinop]

theorem runStages_binop_of_short (hs : s.stack.length < 2)
    (hd : dynamicGas row.dynamicGas (advance row s) = .ok ⟨cost, s.memCostWm⟩)
    (h : row.constantGas + cost ≤ s.gasRemaining.toNat) :
    runStages row (binop f) s =
      .next (raise .stackUnderflow (spent row.opcode (row.constantGas + cost) s)) := by
  have hbinop : binop f (spent row.opcode (row.constantGas + cost) s) = _ := binop_of_short hs
  rw [runStages_of_covered hd h, chargedState_eq_spent h, runHandler, hbinop]

/-- R132, R104 to R106: the three outcomes of an ALU instruction without a gas function of its own. -/
theorem runStages_binop_outcomes (hgas : row.dynamicGas = .none) (s : State) :
    (∀ a b rest, s.stack = a :: b :: rest → row.constantGas ≤ s.gasRemaining.toNat →
      runStages row (binop f) s =
        .next { spent row.opcode row.constantGas s with stack := f a b :: rest }) ∧
    (s.gasRemaining.toNat < row.constantGas →
      ∃ t, runStages row (binop f) s = .next t ∧ Raised .outOfGas 0 0 s t) ∧
    (row.constantGas ≤ s.gasRemaining.toNat → s.stack.length < 2 →
      ∃ t, runStages row (binop f) s = .next t ∧ Raised .stackUnderflow 0 row.constantGas s t) := by
  have hd : dynamicGas row.dynamicGas (advance row s) = .ok ⟨0, s.memCostWm⟩ := by
    rw [hgas]
    rfl
  exact ⟨fun _ _ _ hs hle => runStages_binop_of_cons hs hd hle,
    fun hlt => ⟨_, runStages_of_out_of_gas hd hlt, raised_raise_of_uncharged .outOfGas rfl rfl rfl⟩,
    fun hle hs => ⟨_, runStages_binop_of_short hs hd hle, raised_raise_spent .stackUnderflow _ _ s⟩⟩

end Stages

/-- R133: the sum modulo 2^256. -/
theorem addWords_eq_mod (a b : Word) :
    addWords a b = BitVec.ofNat 256 ((a.toNat + b.toNat) % 2 ^ 256) :=
  BitVec.eq_of_toNat_eq (by simp [addWords])

/-- R134: the product modulo 2^256. -/
theorem mulWords_eq_mod (a b : Word) :
    mulWords a b = BitVec.ofNat 256 ((a.toNat * b.toNat) % 2 ^ 256) :=
  BitVec.eq_of_toNat_eq (by simp [mulWords])

/-- Settles O17: the three outcomes of an ALU instruction at ADD's ROM entry, whose word is the sum. -/
theorem addWrapsModulo : Obligations.AddWrapsModulo := by
  unfold Obligations.AddWrapsModulo
  refine ⟨rfl, fun s => ?_⟩
  obtain ⟨hdone, hgas, hshort⟩ := runStages_binop_outcomes (row := romAdd) (f := addWords) rfl s
  exact ⟨fun a b rest => addWords_eq_mod a b ▸ hdone a b rest, hgas, hshort⟩

/-- Settles O18: the three outcomes of an ALU instruction at MUL's ROM entry, whose word is the product. -/
theorem mulWrapsModulo : Obligations.MulWrapsModulo := by
  unfold Obligations.MulWrapsModulo
  refine ⟨rfl, fun s => ?_⟩
  obtain ⟨hdone, hgas, hshort⟩ := runStages_binop_outcomes (row := romMul) (f := mulWords) rfl s
  exact ⟨fun a b rest => mulWords_eq_mod a b ▸ hdone a b rest, hgas, hshort⟩

end Sys2Proof.Machine
end

section
/-! The decoder and the encoder undo each other (30_encoding.md R80 to R88): what the immediate of a PUSH decodes to,
then the obligations O1 and O2, and the table's own words O3 and O4. -/

namespace Sys2Proof

/-! ### Immediates -/

/-- R83: the number that at most 32 bytes stand for is a word. -/
theorem toNat_ofNat_natOfBytes {imm : List Byte} (h : imm.length ≤ 32) :
    (BitVec.ofNat 256 (natOfBytes imm)).toNat = natOfBytes imm := by
  have hlt := natOfBytes_lt imm
  have hpow : 256 ^ imm.length ≤ 256 ^ 32 := Nat.pow_le_pow_right (by norm_num) h
  rw [BitVec.toNat_ofNat]
  exact Nat.mod_eq_of_lt (by omega)

section DecodePush

variable {row : RomEntry} {make : Word → Instr} {bytes rest : List Byte}

theorem decodePush_of_short (h : bytes.length < row.length - 1) :
    decodePush row make bytes = .error (.truncated row) := if_pos h

theorem decodePush_of_enough (h : row.length - 1 ≤ bytes.length) (h32 : row.length - 1 ≤ 32) :
    decodePush row make bytes =
      .ok (make (BitVec.ofNat 256 (natOfBytes (bytes.take (row.length - 1)))), bytes.drop (row.length - 1)) := by
  have htake : (bytes.take (row.length - 1)).length ≤ 32 := (List.length_take_le _ _).trans h32
  rw [decodePush, if_neg (Nat.not_lt.mpr h), wordFromBytes_of_length_le htake]

/-- R82: the bytes a PUSH was decoded from are the encoding of its immediate, which fits in them. -/
theorem decodePush_ok {n : Nat} {imm : Word} (hmake : Function.Injective make) (hrow : row.length - 1 = n)
    (h32 : n ≤ 32) (h : decodePush row make bytes = .ok (make imm, rest)) :
    imm.toNat < 256 ^ n ∧ bytes = bytesOfNat n imm.toNat ++ rest := by
  subst hrow
  rcases Nat.lt_or_ge bytes.length (row.length - 1) with hshort | henough
  · nomatch (decodePush_of_short hshort).symm.trans h
  · obtain ⟨himm, rfl⟩ := Prod.mk.inj (Except.ok.inj ((decodePush_of_enough henough h32).symm.trans h))
    have hlen : (bytes.take (row.length - 1)).length = row.length - 1 := List.length_take_of_le henough
    have hvalue : imm.toNat = natOfBytes (bytes.take (row.length - 1)) := by
      rw [← hmake himm, toNat_ofNat_natOfBytes (hlen.trans_le h32)]
    have hencode := bytesOfNat_natOfBytes (bytes.take (row.length - 1))
    have hfits := natOfBytes_lt (bytes.take (row.length - 1))
    rw [hlen] at hencode hfits
    exact ⟨hvalue ▸ hfits, by rw [hvalue, hencode, List.take_append_drop]⟩

end DecodePush

/-- R82: an immediate that fits in its `n` bytes is read back from them. -/
theorem decodePush_bytesOfNat {row : RomEntry} {n : Nat} {imm : Word} (make : Word → Instr) (rest : List Byte)
    (hrow : row.length - 1 = n) (h32 : n ≤ 32) (hfits : imm.toNat < 256 ^ n) :
    decodePush row make (bytesOfNat n imm.toNat ++ rest) = .ok (make imm, rest) := by
  subst hrow
  rw [decodePush_of_enough (by simp) h32, List.take_left' (bytesOfNat_length _ _),
    List.drop_left' (bytesOfNat_length _ _), natOfBytes_bytesOfNat, Nat.mod_eq_of_lt hfits, BitVec.ofNat_toNat,
    BitVec.setWidth_eq]

/-- Settles O1: an immediate is read back by `decodePush_bytesOfNat`, and every other instruction is its opcode. -/
theorem decodeEncodeRoundTrip : Obligations.DecodeEncodeRoundTrip := by
  unfold Obligations.DecodeEncodeRoundTrip
  intro i rest hwf
  cases i with
  | add | mul | sdiv | exp | mstore | mstore8 => rfl
  | push1 imm => exact decodePush_bytesOfNat .push1 rest rfl (by decide) (of_decide_eq_true hwf)
  | push2 imm => exact decodePush_bytesOfNat .push2 rest rfl (by decide) (of_decide_eq_true hwf)
  | push3 imm => exact decodePush_bytesOfNat .push3 rest rfl (by decide) (of_decide_eq_true hwf)
  | push32 imm => exact decodePush_bytesOfNat .push32 rest rfl (by decide) imm.isLt

/-- The byte an instruction was decoded from is its opcode. -/
theorem opcode_of_decode_ok {op : Byte} {bytes rest : List Byte} {i : Instr}
    (h : decode (op :: bytes) = .ok (i, rest)) : (romOf i).opcode = op := by
  obtain ⟨-, hd⟩ | ⟨j, tl, hrom, hd⟩ | ⟨row, -, -, hd⟩ := Machine.decode_cases op bytes
  · nomatch hd.symm.trans h
  · cases hd.symm.trans h
    exact Machine.rom_opcode hrom
  · nomatch hd.symm.trans h

/-- Settles O2: the first byte is the opcode of the instruction, and the immediate of a PUSH is `decodePush_ok`. -/
theorem decodedBytesAreTheEncoding : Obligations.DecodedBytesAreTheEncoding := by
  unfold Obligations.DecodedBytesAreTheEncoding
  intro bs i rest h
  cases bs with
  | nil => nomatch h
  | cons op bytes =>
    obtain rfl := opcode_of_decode_ok h
    cases i with
    | add | mul | sdiv | exp | mstore | mstore8 =>
      cases h
      exact ⟨rfl, rfl⟩
    | push1 imm =>
      obtain ⟨hfits, rfl⟩ := decodePush_ok (row := romPush1) (fun _ _ => Instr.push1.inj) rfl (by decide) h
      exact ⟨rfl, decide_eq_true hfits⟩
    | push2 imm =>
      obtain ⟨hfits, rfl⟩ := decodePush_ok (row := romPush2) (fun _ _ => Instr.push2.inj) rfl (by decide) h
      exact ⟨rfl, decide_eq_true hfits⟩
    | push3 imm =>
      obtain ⟨hfits, rfl⟩ := decodePush_ok (row := romPush3) (fun _ _ => Instr.push3.inj) rfl (by decide) h
      exact ⟨rfl, decide_eq_true hfits⟩
    | push32 imm =>
      obtain ⟨-, rfl⟩ := decodePush_ok (row := romPush32) (fun _ _ => Instr.push32.inj) rfl (by decide) h
      exact ⟨rfl, rfl⟩

/-- Settles O3: the eleven words are read by evaluation. -/
theorem tableWordsDecode : Obligations.TableWordsDecode :=
  ⟨rfl, rfl, rfl, rfl, rfl, rfl, rfl, rfl, rfl, rfl, rfl⟩

/-- Settles O4: the populated entries are found among all 256 bytes, and each row is read off the table. -/
theorem romHoldsExactlyTheTable : Obligations.RomHoldsExactlyTheTable :=
  ⟨by decide, rfl, rfl, rfl, rfl, rfl, rfl, rfl, rfl, rfl, rfl⟩

end Sys2Proof
end

section
/-! Every way a step can end, said once: `StagesEnd` for the stages of one ROM entry (R104 to R107) and `StepEnd` for
the step of any state. The statements about steps are case analyses over these two. The obligations O5 and O8 are two
of the cases. -/

namespace Sys2Proof.Machine

/-! ### The stages of one ROM entry -/

/-- The states in which the stages of a ROM entry end, by the stage that ends them. -/
inductive StagesEnd (row : RomEntry) (handler : State → Except Stop State) (s : State) : State → Prop where
  /-- Stage 3: the gas function raises. -/
  | gasError (e : Err) (hgas : dynamicGas row.dynamicGas (advance row s) = .error e) :
      StagesEnd row handler s (raise e (advance row s))
  /-- Stage 4: the limit checker raises. -/
  | outOfGas (d : DynGas) (hgas : dynamicGas row.dynamicGas (advance row s) = .ok d)
      (hlt : s.gasRemaining.toNat < row.constantGas + d.cost) :
      StagesEnd row handler s (raise .outOfGas ((advance row s).setWatermark d.watermark))
  /-- Stage 5: the handler raises. -/
  | handlerError (d : DynGas) (e : Err) (hgas : dynamicGas row.dynamicGas (advance row s) = .ok d)
      (hle : row.constantGas + d.cost ≤ s.gasRemaining.toNat)
      (hraise : handler (chargedState row d s) = .error (.raised e)) :
      StagesEnd row handler s (raise e (chargedState row d s))
  /-- Stage 5: the handler completes. -/
  | completed (d : DynGas) (t : State) (hgas : dynamicGas row.dynamicGas (advance row s) = .ok d)
      (hle : row.constantGas + d.cost ≤ s.gasRemaining.toNat)
      (hdone : handler (chargedState row d s) = .ok t) :
      StagesEnd row handler s t

theorem runStages_eq_next_iff {row : RomEntry} {handler : State → Except Stop State} {s t : State} :
    runStages row handler s = .next t ↔ StagesEnd row handler s t := by
  constructor
  · intro h
    obtain ⟨e, hgas, hend⟩ | ⟨d, hgas, hlt, hend⟩ | ⟨d, u, hgas, hle, rfl, hend⟩ := runStages_cases row handler s
    · cases hend.symm.trans h
      exact .gasError e hgas
    · cases hend.symm.trans h
      exact .outOfGas d hgas hlt
    · obtain ⟨u, hu, hend⟩ | ⟨e, he, hend⟩ | ⟨f, -, hend⟩ := hend
      · cases hend.symm.trans h
        exact .completed d _ hgas hle hu
      · cases hend.symm.trans h
        exact .handlerError d e hgas hle he
      · nomatch hend.symm.trans h
  · intro h
    cases h with
    | gasError e hgas => exact runStages_of_gas_error hgas
    | outOfGas d hgas hlt => exact runStages_of_out_of_gas hgas hlt
    | handlerError d e hgas hle hraise => rw [runStages_of_covered hgas hle, runHandler, hraise]
    | completed d t hgas hle hdone => rw [runStages_of_covered hgas hle, runHandler, hdone]

/-! ### The fetch -/

/-- The registers and memories a fetch reads are the same in the two states, and a run is in progress in both or in
neither. -/
structure SameFetch (s s' : State) : Prop where
  seq : s'.seq = s.seq
  pc : s'.pc = s.pc
  code : s'.code = s.code
  codeLen : s'.codeLen = s.codeLen
  draw : s'.draw = s.draw

namespace SameFetch

variable {s s' : State}

theorem refl (s : State) : SameFetch s s := ⟨rfl, rfl, rfl, rfl, rfl⟩

theorem codeAt_eq (h : SameFetch s s') (a : Nat) : codeAt s' a = codeAt s a := by
  rw [codeAt, codeAt, h.code, h.draw]

theorem fetchWindow_eq (h : SameFetch s s') : fetchWindow s' = fetchWindow s := by
  rw [fetchWindow, fetchWindow, h.codeLen, h.pc]
  exact List.map_congr_left fun k _ => h.codeAt_eq _

end SameFetch

section Decoded

variable {s : State} (hq : s.seq = .running) (hpc : s.pc < s.codeLen)
include hq hpc

theorem step_of_decode_ok {i : Instr} {rest : List Byte} (hd : decode (fetchWindow s) = .ok (i, rest)) :
    step s = exec i s := by
  obtain ⟨hne, -⟩ | ⟨-, hle, -⟩ | ⟨-, -, ⟨j, tl, hj, hstep⟩ | ⟨e, he, -⟩⟩ := step_cases s
  · exact absurd hq hne
  · exact absurd hpc (Nat.not_lt.mpr hle)
  · cases hj.symm.trans hd
    exact hstep
  · nomatch he.symm.trans hd

theorem step_of_decode_error {e : DecodeError} (hd : decode (fetchWindow s) = .error e) :
    step s = decodeFailure e s := by
  obtain ⟨hne, -⟩ | ⟨-, hle, -⟩ | ⟨-, -, ⟨j, tl, hj, -⟩ | ⟨e', he, hstep⟩⟩ := step_cases s
  · exact absurd hq hne
  · exact absurd hpc (Nat.not_lt.mpr hle)
  · nomatch hj.symm.trans hd
  · cases he.symm.trans hd
    exact hstep

end Decoded

/-- Settles O5: `decode` answers well-formed instructions only (O2), and the step runs what it answers. -/
theorem stepRunsDecodedInstruction : Obligations.StepRunsDecodedInstruction := by
  unfold Obligations.StepRunsDecodedInstruction
  intro s i rest hq hpc hd
  obtain ⟨-, hwf⟩ := decodedBytesAreTheEncoding _ _ _ hd
  exact ⟨hwf, step_of_decode_ok hq hpc hd⟩

/-- R101 to R107, where the byte at `pc` has a ROM entry: every state that fetches the same bytes runs the stages of
that entry with the same handler. -/
theorem step_of_rom {s : State} {row : RomEntry} (hq : s.seq = .running) (hpc : s.pc < s.codeLen)
    (hrom : rom (codeAt s s.pc) = some row) :
    ∃ handler, MeaningOf row handler ∧ ∀ s', SameFetch s s' → step s' = runStages row handler s' := by
  have hwindow := fetchWindow_cons hpc
  have hrun : ∀ {s'}, SameFetch s s' → s'.seq = .running ∧ s'.pc < s'.codeLen := fun h =>
    ⟨h.seq.trans hq, by rw [h.pc, h.codeLen]; exact hpc⟩
  obtain ⟨hnone, -⟩ | ⟨i, tl, hi, hd⟩ | ⟨row', hpush, hrow, hd⟩ := decode_cases (codeAt s s.pc)
    ((List.range (min 33 (s.codeLen - s.pc) - 1)).map (fun k => codeAt s (s.pc + 1 + k)))
  · nomatch hnone.symm.trans hrom
  · cases hi.symm.trans hrom
    obtain ⟨handler, hm, hexec⟩ := exec_meaning i
    refine ⟨handler, hm, fun s' h => ?_⟩
    obtain ⟨hq', hpc'⟩ := hrun h
    rw [step_of_decode_ok hq' hpc' (by rw [h.fetchWindow_eq, hwindow, hd]), hexec]
  · cases hrow.symm.trans hrom
    refine ⟨pushHandler 0, .push row 0 hpush, fun s' h => ?_⟩
    obtain ⟨hq', hpc'⟩ := hrun h
    rw [step_of_decode_error hq' hpc' (by rw [h.fetchWindow_eq, hwindow, hd]), decodeFailure]

theorem step_of_invalid {s : State} (hq : s.seq = .running) (hpc : s.pc < s.codeLen)
    (hrom : rom (codeAt s s.pc) = none) :
    step s = .next (raise (.invalidOpcode (codeAt s s.pc)) (s.setOpcode (codeAt s s.pc))) := by
  obtain ⟨-, hstep⟩ | ⟨row, handler, -, hrow, -⟩ := step_running hq hpc
  · exact hstep
  · nomatch hrow.symm.trans hrom

/-- Settles O8: what the step raises records the byte, and neither charges nor moves `pc`. -/
theorem invalidOpcodeHaltsUncharged : Obligations.InvalidOpcodeHaltsUncharged := by
  unfold Obligations.InvalidOpcodeHaltsUncharged
  intro s hq hpc hrom
  exact ⟨_, step_of_invalid hq hpc hrom, raised_raise_of_uncharged (.invalidOpcode _) rfl rfl rfl, rfl, rfl⟩

/-! ### The step -/

/-- The states in which the step of a state ends. -/
inductive StepEnd (s : State) : State → Prop where
  /-- No run is in progress (R193). -/
  | held (hq : s.seq ≠ .running) : StepEnd s s
  /-- The successful halt (R108). -/
  | endOfCode (hq : s.seq = .running) (hpc : s.codeLen ≤ s.pc) : StepEnd s (finishRun s)
  /-- The byte at `pc` has no ROM entry (R102, R175). -/
  | invalid (hq : s.seq = .running) (hpc : s.pc < s.codeLen) (hrom : rom (codeAt s s.pc) = none) :
      StepEnd s (raise (.invalidOpcode (codeAt s s.pc)) (s.setOpcode (codeAt s s.pc)))
  /-- The stages of the ROM entry of the byte at `pc`. -/
  | stages (row : RomEntry) (handler : State → Except Stop State) (t : State) (hq : s.seq = .running)
      (hpc : s.pc < s.codeLen) (hrom : rom (codeAt s s.pc) = some row) (hm : MeaningOf row handler)
      (hsame : ∀ s', SameFetch s s' → step s' = runStages row handler s')
      (hend : StagesEnd row handler s t) : StepEnd s t

theorem stepEnd_of_step {s t : State} (h : step s = .next t) : StepEnd s t := by
  by_cases hq : s.seq = .running
  case neg =>
    cases (step_of_not_running hq).symm.trans h
    exact .held hq
  case pos =>
    rcases Nat.lt_or_ge s.pc s.codeLen with hpc | hpc
    · cases hrom : rom (codeAt s s.pc) with
      | none =>
        cases (step_of_invalid hq hpc hrom).symm.trans h
        exact .invalid hq hpc hrom
      | some row =>
        obtain ⟨handler, hm, hsame⟩ := step_of_rom hq hpc hrom
        have hend := runStages_eq_next_iff.mp ((hsame s (.refl s)).symm.trans h)
        exact .stages row handler t hq hpc hrom hm hsame hend
    · cases (step_at_end_of_code hq hpc).symm.trans h
      exact .endOfCode hq hpc

/-- Settles O9: every step moves some cost of gas to get to the state it answers (`step_gasMoved`). -/
theorem everyStepAnswersNext : Obligations.EveryStepAnswersNext := by
  unfold Obligations.EveryStepAnswersNext
  intro s
  obtain ⟨-, t, hstep, -⟩ := step_gasMoved s
  exact ⟨t, hstep⟩

end Sys2Proof.Machine
end

section
/-! What a handler does when it completes and when it raises, said once over the ten instructions; and the step in two
coarse ends: it halts the run and leaves stack and memory, or a handler completes. The obligations O29, O30 and O35
(the codes of an error, what one leaves, what no step writes) and O27, O37 and O10 (memory, `pc` and the end of a run)
follow. -/

namespace Sys2Proof.Machine

/-! ### Handlers -/

/-- The states in which the handler of a ROM entry completes. -/
inductive HandlerEnd (row : RomEntry) (s : State) : State → Prop where
  | alu (a b result : Word) (rest : List Word) (hgas : ∀ n, row.dynamicGas ≠ .memory n)
      (hs : s.stack = a :: b :: rest) : HandlerEnd row s (s.setStack (result :: rest))
  | push (imm : Word) (hgas : ∀ n, row.dynamicGas ≠ .memory n)
      (hbytes : s.opcode.toNat - 0x5f ≤ s.codeLen - s.pc) (hroom : s.stack.length < Config.stackDepth) :
      HandlerEnd row s ((s.setStack (imm :: s.stack)).setPc (s.pc + (s.opcode.toNat - 0x5f)))
  | store (offset value : Word) (rest : List Word) (bs : List Byte) (t : State)
      (hgas : row.dynamicGas = .memory bs.length) (hop : row.opcode = 0x52 ∨ row.opcode = 0x53)
      (hs : s.stack = offset :: value :: rest)
      (hwrite : memWrite offset.toNat bs (s.setStack rest) = .ok t) : HandlerEnd row s t

theorem storeHandler_error {bytesOf : Word → List Byte} {s : State} {e : Err}
    (h : storeHandler bytesOf s = .error (.raised e)) : e = .stackUnderflow ∨ e = .capacityExceeded := by
  unfold storeHandler at h
  split at h
  · split at h
    · cases h
      exact .inr rfl
    · obtain ⟨-, he⟩ | ⟨-, he⟩ := extend_error (memWrite_error h) <;> cases he
      exact .inr rfl
  · cases h
    exact .inl rfl

namespace MeaningOf

variable {row : RomEntry} {handler : State → Except Stop State} {s t : State}

theorem handlerEnd (hm : MeaningOf row handler) (h : handler s = .ok t) : HandlerEnd row s t := by
  cases hm with
  | alu row f hrow =>
    obtain ⟨a, b, rest, hs, rfl⟩ := binop_cases h
    have hgas : ∀ row ∈ [romAdd, romMul, romSdiv, romExp], ∀ n, row.dynamicGas ≠ .memory n := by
      simp [romAdd, romMul, romSdiv, romExp]
    exact .alu a b _ rest (hgas row hrow) hs
  | push row imm hrow =>
    obtain ⟨hbytes, hroom, rfl⟩ := pushHandler_cases h
    have hgas : ∀ row ∈ [romPush1, romPush2, romPush3, romPush32], ∀ n, row.dynamicGas ≠ .memory n := by
      simp [romPush1, romPush2, romPush3, romPush32]
    exact .push imm (hgas row hrow) hbytes hroom
  | store32 =>
    obtain ⟨offset, value, rest, hs, hwrite⟩ := storeHandler_cases h
    exact .store offset value rest _ t (by simp [wordBytes, romMstore]) (.inl rfl) hs hwrite
  | store1 =>
    obtain ⟨offset, value, rest, hs, hwrite⟩ := storeHandler_cases h
    exact .store offset value rest _ t rfl (.inr rfl) hs hwrite

/-- The four errors a handler raises; the one that carries a byte carries the opcode. -/
theorem error_cases (hm : MeaningOf row handler) {e : Err} (h : handler s = .error (.raised e)) :
    e = .stackUnderflow ∨ e = .stackOverflow ∨ e = .capacityExceeded ∨ e = .notEnoughBytesToRead s.opcode := by
  cases hm with
  | alu =>
    obtain ⟨-, he⟩ := binop_error h
    cases he
    exact .inl rfl
  | push =>
    obtain ⟨-, he⟩ | ⟨-, he⟩ := pushHandler_error h <;> cases he
    · exact .inr (.inr (.inr rfl))
    · exact .inr (.inl rfl)
  | store32 => exact (storeHandler_error h).imp_right fun he => .inr (.inl he)
  | store1 => exact (storeHandler_error h).imp_right fun he => .inr (.inl he)

end MeaningOf

/-- R106: a handler writes no register but the stack, `pc` and the memory. -/
theorem HandlerEnd.frame {row : RomEntry} {s t : State} (h : HandlerEnd row s t) :
    t = { s with stack := t.stack, pc := t.pc, memWords := t.memWords, mem := t.mem } := by
  cases h with
  | alu => rfl
  | push => rfl
  | store offset value rest bs t hgas hop hs hwrite =>
    rw [memWrite_frame hwrite]
    rfl

theorem dynamicGas_error {g : DynamicGas} {s : State} {e : Err} (h : dynamicGas g s = .error e) :
    e = .stackUnderflow ∨ e = .gasUintOverflow := by
  cases g with
  | none => nomatch h
  | exp =>
    simp only [dynamicGas, expGasCost] at h
    split at h
    · next hpeek =>
      cases h
      exact .inl (peek_error hpeek).2
    · nomatch h
  | memory n =>
    simp only [dynamicGas, memoryExpansionCost] at h
    split at h
    · next hpeek =>
      cases h
      exact .inl (peek_error hpeek).2
    · split at h
      · cases h
        exact .inr rfl
      · split at h <;> nomatch h

/-! ### What no step writes, and what an error leaves and is coded as -/

/-- Settles O35: every way a step ends writes other registers, and a code byte is read from the three that stay. -/
theorem stepNeverWritesItsInputs : Obligations.StepNeverWritesItsInputs := by
  unfold Obligations.StepNeverWritesItsInputs
  intro s t h
  have hkept : t.code = s.code ∧ t.codeLen = s.codeLen ∧ t.gasLimit = s.gasLimit ∧ t.params = s.params ∧
      t.draw = s.draw := by
    cases stepEnd_of_step h with
    | held | endOfCode | invalid => exact ⟨rfl, rfl, rfl, rfl, rfl⟩
    | stages row handler t hq hpc hrom hm hsame hend =>
      cases hend with
      | gasError | outOfGas | handlerError => exact ⟨rfl, rfl, rfl, rfl, rfl⟩
      | completed d t hgas hle hdone =>
        rw [(hm.handlerEnd hdone).frame]
        exact ⟨rfl, rfl, rfl, rfl, rfl⟩
  obtain ⟨hcode, hlen, hlimit, hparams, hdraw⟩ := hkept
  exact ⟨hcode, hlen, hlimit, hparams, hdraw, fun a => by rw [codeAt, codeAt, hcode, hdraw]⟩

/-- Settles O30: an error is raised at the byte, in stage 3, in stage 4 or in stage 5, before any of them writes the
stack or the memory; only stage 5 comes after the charge. -/
theorem errorsLeaveNoPartialEffect : Obligations.ErrorsLeaveNoPartialEffect := by
  unfold Obligations.ErrorsLeaveNoPartialEffect
  intro s t hrun h herror
  cases stepEnd_of_step h with
  | held hq => exact absurd hrun hq
  | endOfCode => nomatch herror
  | invalid => exact ⟨nofun, rfl, rfl, rfl, rfl, rfl, rfl, rfl, fun _ => ⟨rfl, rfl⟩⟩
  | stages row handler t hq hpc hrom hm hsame hend =>
    have hop : row.opcode = codeAt s s.pc := rom_opcode hrom
    cases hend with
    | gasError e hgas =>
      obtain rfl | rfl := dynamicGas_error hgas <;>
        exact ⟨nofun, rfl, rfl, rfl, rfl, hop, rfl, rfl, fun _ => ⟨rfl, rfl⟩⟩
    | outOfGas => exact ⟨nofun, rfl, rfl, rfl, rfl, hop, rfl, rfl, fun _ => ⟨rfl, rfl⟩⟩
    | handlerError d e hgas hle hraise =>
      obtain rfl | rfl | rfl | rfl := hm.error_cases hraise
      · exact ⟨nofun, rfl, rfl, rfl, rfl, hop, rfl, rfl, nofun⟩
      · exact ⟨nofun, rfl, rfl, rfl, rfl, hop, rfl, rfl, nofun⟩
      · exact ⟨nofun, rfl, rfl, rfl, rfl, hop, rfl, rfl, nofun⟩
      · exact ⟨nofun, rfl, rfl, rfl, rfl, hop, rfl, hop, nofun⟩
    | completed d t hgas hle hdone =>
      rw [(hm.handlerEnd hdone).frame] at herror
      nomatch hrun.symm.trans herror

/-- Settles O29: each code is read off its definition. -/
theorem errorAndStateCodes : Obligations.ErrorAndStateCodes :=
  ⟨rfl, rfl, rfl, rfl, rfl, rfl, rfl, rfl, rfl, rfl, rfl, rfl⟩

/-! ### The two ends of a step of a run -/

/-- A step that ends the run, in success or with an error: it leaves the stack and the memory, and takes the digest. -/
structure HaltsAt (s t : State) : Prop where
  halted : Halted t
  stack : t.stack = s.stack
  mem : t.mem = s.mem
  memWords : t.memWords = s.memWords
  digest : t.digestOut = Config.digest (memBytes t)
  pc_le : s.pc ≤ t.pc
  pc_within : s.pc ≤ s.codeLen → t.pc ≤ s.codeLen

/-- A step in which the gas function answers `d`, the charge goes through and the handler completes. -/
structure CompletesAt (row : RomEntry) (d : DynGas) (s t : State) : Prop where
  running : s.seq = .running
  within : s.pc < s.codeLen
  gas : dynamicGas row.dynamicGas (advance row s) = .ok d
  handler : HandlerEnd row (chargedState row d s) t

theorem step_of_run_cases {s t : State} (hq : s.seq = .running) (h : step s = .next t) :
    HaltsAt s t ∨ ∃ row d, CompletesAt row d s t := by
  cases stepEnd_of_step h with
  | held hne => exact absurd hq hne
  | endOfCode => exact .inl ⟨.inl rfl, rfl, rfl, rfl, rfl, le_rfl, id⟩
  | invalid => exact .inl ⟨.inr rfl, rfl, rfl, rfl, rfl, le_rfl, id⟩
  | stages row handler t hq hpc hrom hm hsame hend =>
    cases hend with
    | gasError | outOfGas | handlerError =>
      exact .inl ⟨.inr rfl, rfl, rfl, rfl, rfl, Nat.le_succ _, fun _ => hpc⟩
    | completed d t hgas hle hdone => exact .inr ⟨row, d, hq, hpc, hgas, hm.handlerEnd hdone⟩

namespace CompletesAt

variable {row : RomEntry} {d : DynGas} {s t : State}

/-- Only the registers of a run in progress are written. -/
theorem frame (h : CompletesAt row d s t) :
    t = { chargedState row d s with stack := t.stack, pc := t.pc, memWords := t.memWords, mem := t.mem } :=
  h.handler.frame

theorem still_running (h : CompletesAt row d s t) : t.seq = .running := by
  rw [h.frame]
  exact h.running

theorem pc_moves (h : CompletesAt row d s t) : s.pc < t.pc ∧ t.pc ≤ s.codeLen := by
  have hpc := h.within
  cases h.handler with
  | alu => exact ⟨Nat.lt_succ_self _, hpc⟩
  | push imm hgas hbytes hroom =>
    change _ ≤ s.codeLen - (s.pc + 1) at hbytes
    change s.pc < s.pc + 1 + _ ∧ s.pc + 1 + _ ≤ s.codeLen
    omega
  | store offset value rest bs t hgas hop hs hwrite =>
    rw [memWrite_frame hwrite]
    exact ⟨Nat.lt_succ_self _, hpc⟩

end CompletesAt

/-! ### Memory, `pc` and the end of a run -/

/-- Settles O27: the only end of a step that writes the memory is a completed store, which never makes it shorter. -/
theorem memoryOnlyGrowsByStores : Obligations.MemoryOnlyGrowsByStores := by
  unfold Obligations.MemoryOnlyGrowsByStores
  intro s t h
  have hmultiple : memLen t % 32 = 0 := Nat.mul_mod_right 32 _
  have hsame : t.mem = s.mem → t.memWords = s.memWords → memLen s ≤ memLen t ∧ memLen t % 32 = 0 ∧
      (t.mem ≠ s.mem ∨ t.memWords ≠ s.memWords →
        s.seq = .running ∧ (t.opcode = 0x52 ∨ t.opcode = 0x53) ∧ t.seq = .running) :=
    fun hmem hwords => ⟨by rw [memLen, memLen, hwords], hmultiple, fun hne => by simp [hmem, hwords] at hne⟩
  by_cases hq : s.seq = .running
  case neg =>
    cases (step_of_not_running hq).symm.trans h
    exact hsame rfl rfl
  case pos =>
    obtain hhalt | ⟨row, d, hdone⟩ := step_of_run_cases hq h
    · exact hsame hhalt.mem hhalt.memWords
    · have hseq := hdone.still_running
      cases hdone.handler with
      | alu | push => exact hsame rfl rfl
      | store offset value rest bs t hgas hop hs hwrite =>
        have hgrows : memLen s ≤ memLen t := (memLen_memWrite hwrite).symm ▸ le_max_left _ _
        refine ⟨hgrows, hmultiple, fun _ => ⟨hq, ?_, hseq⟩⟩
        rw [memWrite_frame hwrite]
        exact hop

/-- Settles O37: a halt keeps `pc` or moves it past the opcode, and a completed step moves it on within the code. -/
theorem pcMovesForwardWithinCode : Obligations.PcMovesForwardWithinCode := by
  unfold Obligations.PcMovesForwardWithinCode
  intro s t hq hpc h
  obtain ⟨-, hlen, -⟩ := stepNeverWritesItsInputs s t h
  rw [hlen]
  obtain hhalt | ⟨row, d, hdone⟩ := step_of_run_cases hq h
  · exact ⟨hhalt.pc_within hpc, hhalt.pc_le, .inr hhalt.halted⟩
  · obtain ⟨hlt, hle⟩ := hdone.pc_moves
    exact ⟨hle, hlt.le, .inl hlt⟩

theorem runPasses_of_halted {s : State} (hs : Halted s) (n : Nat) : runPasses n s = .next s := by
  have hq : s.seq ≠ .running := by
    obtain hs | hs := hs <;> simp [hs]
  induction n with
  | zero => rfl
  | succ n ih => rw [runPasses_succ n (step_of_not_running hq), ih]

/-- R117: a run with at most `n` code bytes left halts within `n + 1` passes, since every pass that does not halt it
takes at least one of them. -/
theorem run_halts {n : Nat} {s : State} (hq : s.seq = .running) (hleft : s.codeLen - s.pc ≤ n) :
    ∃ t, runPasses (n + 1) s = .next t ∧ Halted t := by
  have hhalts : ∀ {m s t}, step s = .next t → Halted t → ∃ u, runPasses (m + 1) s = .next u ∧ Halted u :=
    fun hstep ht => ⟨_, (runPasses_succ _ hstep).trans (runPasses_of_halted ht _), ht⟩
  induction n generalizing s with
  | zero => exact hhalts (step_at_end_of_code hq (by omega)) (.inl rfl)
  | succ n ih =>
    obtain ⟨t, hstep⟩ := everyStepAnswersNext s
    obtain hhalt | ⟨row, d, hdone⟩ := step_of_run_cases hq hstep
    · exact hhalts hstep hhalt.halted
    · obtain ⟨-, hlen, -⟩ := stepNeverWritesItsInputs s t hstep
      obtain ⟨hlt, -⟩ := hdone.pc_moves
      obtain ⟨u, hrun, hu⟩ := ih hdone.still_running (by omega)
      exact ⟨u, (runPasses_succ _ hstep).trans hrun, hu⟩

/-- Settles O10: `run_halts` at exactly the bytes that are left. -/
theorem everyRunHalts : Obligations.EveryRunHalts := by
  unfold Obligations.EveryRunHalts
  exact fun s hq => run_halts hq le_rfl

end Sys2Proof.Machine
end

section
/-! The watermark is the cost of the memory (R34, R112): what the gas function of a store writes to it, and the memory
length the store then has. With it the obligations O33 and O36. -/

namespace Sys2Proof.Machine

/-! ### The cost of memory -/

theorem memCost_mono : Monotone memCost := fun _ _ h =>
  Nat.add_le_add (Nat.mul_le_mul_left 3 h) (Nat.div_le_div_right (Nat.mul_le_mul h h))

/-- R34, L1-7: the two spellings of the cost. -/
theorem memCost_eq_wordsCost (w : Nat) : memCost w = wordsCost w := by
  rw [memCost, wordsCost, pow_two]

/-- The cost of a memory within the threshold fits the 64 bits of the watermark. -/
theorem memCost_lt {size : Nat} (h : ceil32 size ≤ Config.memSizeThreshold) :
    memCost (ceil32 size / 32) < 2 ^ 64 :=
  calc memCost (ceil32 size / 32) ≤ memCost (Config.memSizeThreshold / 32) :=
        memCost_mono (Nat.div_le_div_right h)
    _ < 2 ^ 64 := by decide

/-- The watermark is the cost of the memory. -/
abbrev WatermarkAgrees (s : State) : Prop := s.memCostWm.toNat = memCost s.memWords.toNat

theorem dynamicGas_watermark {g : DynamicGas} {s : State} {d : DynGas} (hg : ∀ n, g ≠ .memory n)
    (h : dynamicGas g s = .ok d) : d.watermark = s.memCostWm := by
  cases g with
  | none =>
    cases h
    rfl
  | exp =>
    simp only [dynamicGas, expGasCost] at h
    split at h
    · nomatch h
    · cases h
      rfl
  | memory n => exact absurd rfl (hg n)

/-- R112: the gas function of a store writes the cost of the memory the store will have. -/
theorem memoryExpansionCost_watermark {n : Nat} {s : State} {d : DynGas} (hwm : WatermarkAgrees s)
    (h : memoryExpansionCost n s = .ok d) :
    ∃ offset rest, s.stack = offset :: rest ∧
      d.watermark.toNat = memCost (max s.memWords.toNat (ceil32 (offset.toNat + n) / 32)) := by
  obtain ⟨offset, rest, hs, hthreshold, ⟨hwithin, rfl⟩ | ⟨hgrows, rfl⟩⟩ := memoryExpansionCost_cases h
  · refine ⟨offset, rest, hs, ?_⟩
    rw [memLen] at hwithin
    rw [max_eq_left (by omega), ← hwm]
  · refine ⟨offset, rest, hs, ?_⟩
    rw [memLen] at hgrows
    rw [max_eq_right (by omega), BitVec.toNat_ofNat, Nat.mod_eq_of_lt (memCost_lt hthreshold)]

/-- R34: no gas function lowers the watermark. -/
theorem dynamicGas_watermark_le {g : DynamicGas} {s : State} {d : DynGas} (hwm : WatermarkAgrees s)
    (h : dynamicGas g s = .ok d) : s.memCostWm.toNat ≤ d.watermark.toNat := by
  by_cases hg : ∃ n, g = .memory n
  case neg => rw [dynamicGas_watermark (fun n hn => hg ⟨n, hn⟩) h]
  case pos =>
    obtain ⟨n, rfl⟩ := hg
    obtain ⟨offset, rest, -, hcost⟩ := memoryExpansionCost_watermark hwm h
    rw [hcost, hwm]
    exact memCost_mono (le_max_left _ _)

theorem memWords_memWrite {offset : Nat} {bs : List Byte} {s t : State} (h : memWrite offset bs s = .ok t) :
    t.memWords.toNat = max s.memWords.toNat (ceil32 (offset + bs.length) / 32) := by
  have hlen := memLen_memWrite h
  rw [memLen, memLen] at hlen
  omega

namespace CompletesAt

variable {row : RomEntry} {d : DynGas} {s t : State}

theorem watermark_eq (h : CompletesAt row d s t) : t.memCostWm = d.watermark := by
  rw [h.frame]
  rfl

/-- R34: after a completed step the watermark is the cost of the memory again. -/
theorem watermarkAgrees (h : CompletesAt row d s t) (hwm : WatermarkAgrees s) : WatermarkAgrees t := by
  have hother : (∀ n, row.dynamicGas ≠ .memory n) → t.memWords = s.memWords → WatermarkAgrees t := fun hg hwords => by
    have hsame : d.watermark = s.memCostWm := dynamicGas_watermark (s := advance row s) hg h.gas
    rw [WatermarkAgrees, h.watermark_eq, hsame, hwords, hwm]
  cases h.handler with
  | alu a b result rest hg => exact hother hg rfl
  | push imm hg => exact hother hg rfl
  | store offset value rest bs t hg hop hs hwrite =>
    have hgas := h.gas
    rw [hg] at hgas
    obtain ⟨offset', rest', hs', hcost⟩ := memoryExpansionCost_watermark (s := advance row s) hwm hgas
    cases hs.symm.trans hs'
    rw [WatermarkAgrees, h.watermark_eq, hcost, memWords_memWrite hwrite]
    rfl

end CompletesAt

/-- Settles O36: whichever stage ends the step, the watermark is the old one or what the gas function wrote; and a step
that does not halt with an error leaves it the cost of the memory. -/
theorem watermarkNeverDecreases : Obligations.WatermarkNeverDecreases := by
  unfold Obligations.WatermarkNeverDecreases
  intro s t hinv hq h
  obtain ⟨-, -, hwm⟩ := hinv.registers hq
  rw [← memCost_eq_wordsCost]
  cases stepEnd_of_step h with
  | held hne => exact absurd hq hne
  | endOfCode => exact ⟨le_rfl, fun _ => hwm⟩
  | invalid => exact ⟨le_rfl, fun hne => absurd rfl hne⟩
  | stages row handler t hq hpc hrom hm hsame hend =>
    have hle : ∀ d, dynamicGas row.dynamicGas (advance row s) = .ok d →
        s.memCostWm.toNat ≤ d.watermark.toNat := fun d => dynamicGas_watermark_le (s := advance row s) hwm
    cases hend with
    | gasError => exact ⟨le_rfl, fun hne => absurd rfl hne⟩
    | outOfGas d hgas | handlerError d e hgas => exact ⟨hle d hgas, fun hne => absurd rfl hne⟩
    | completed d t hgas hcovered hdone =>
      have hcomplete : CompletesAt row d s t := ⟨hq, hpc, hgas, hm.handlerEnd hdone⟩
      exact ⟨hcomplete.watermark_eq ▸ hle d hgas, fun _ => hcomplete.watermarkAgrees hwm⟩

/-! ### The invariant, clause by clause -/

theorem step_stack_le {s t : State} (hq : s.seq = .running) (hstack : s.stack.length ≤ Config.stackDepth)
    (h : step s = .next t) : t.stack.length ≤ Config.stackDepth := by
  obtain hhalt | ⟨row, d, hdone⟩ := step_of_run_cases hq h
  · rwa [hhalt.stack]
  · cases hdone.handler with
    | alu a b result rest hg hs =>
      change s.stack = _ at hs
      rw [hs] at hstack
      exact Nat.le_of_succ_le hstack
    | push imm hg hbytes hroom => exact hroom
    | store offset value rest bs t hg hop hs hwrite =>
      change s.stack = _ at hs
      rw [hs] at hstack
      rw [memWrite_frame hwrite]
      exact Nat.le_of_succ_le (Nat.le_of_succ_le hstack)

theorem memLen_memWrite_le_capacity {offset : Nat} {bs : List Byte} {s t : State}
    (h : memWrite offset bs s = .ok t) (hs : memLen s ≤ s.params.memBytesMax) :
    memLen t ≤ s.params.memBytesMax := by
  obtain ⟨u, hu, rfl⟩ := memWrite_cases h
  change memLen u ≤ _
  have hlen := memLen_extend hu
  obtain ⟨-, rfl⟩ | ⟨-, hcapacity, -⟩ := extend_cases hu
  · exact hs
  · rw [hlen]
    exact max_le hs hcapacity

theorem step_memoryInBounds {s t : State} (hq : s.seq = .running) (hmem : MemoryInBounds s)
    (h : step s = .next t) : MemoryInBounds t := by
  obtain ⟨-, -, -, hparams, -⟩ := stepNeverWritesItsInputs s t h
  have hsame : t.mem = s.mem → t.memWords = s.memWords → MemoryInBounds t := fun h1 h2 => by
    rw [MemoryInBounds, memLen, h1, h2, hparams]
    exact hmem
  obtain hhalt | ⟨row, d, hdone⟩ := step_of_run_cases hq h
  · exact hsame hhalt.mem hhalt.memWords
  · cases hdone.handler with
    | alu | push => exact hsame rfl rfl
    | store offset value rest bs t hg hop hs hwrite =>
      obtain ⟨hwf, hbelow, hcapacity⟩ := hmem
      refine ⟨wf_memWrite hwrite hwf, bounded_memWrite hwrite hbelow, ?_⟩
      rw [hparams]
      exact memLen_memWrite_le_capacity (s := (chargedState row d s).setStack rest) hwrite hcapacity

/-- R33 of one step. -/
theorem step_gas_sum {s t : State} (hsum : s.gasConsumed.toNat + s.gasRemaining.toNat = s.gasLimit.toNat)
    (h : step s = .next t) : t.gasConsumed.toNat + t.gasRemaining.toNat = t.gasLimit.toNat := by
  obtain ⟨-, -, hlimit, -⟩ := stepNeverWritesItsInputs s t h
  obtain ⟨-, -, hsum'⟩ := gasOnlyMovesToConsumed 1 s t hsum (runPasses_succ 0 h)
  rw [hsum', hlimit]

theorem step_registersAgree {s t : State} (hq : s.seq = .running) (hreg : RunRegistersAgree s)
    (h : step s = .next t) : RunRegistersAgree t := by
  intro ht
  obtain ⟨hpc, hsum, hwm⟩ := hreg hq
  obtain hhalt | ⟨row, d, hdone⟩ := step_of_run_cases hq h
  · obtain hs | hs := hhalt.halted <;> nomatch ht.symm.trans hs
  · obtain ⟨hpc', -, -⟩ := pcMovesForwardWithinCode s t hq hpc h
    exact ⟨hpc', step_gas_sum hsum h, hdone.watermarkAgrees hwm⟩

/-- R36: an error records what `ErrorsLeaveNoPartialEffect` (O30) says; every other end of a step leaves `ERR_KIND`
none and `ERR_OPCODE` 0, as it found them. -/
theorem step_errorsAgree {s t : State} (hq : s.seq = .running) (herr : ErrorRegistersAgree s)
    (h : step s = .next t) : ErrorRegistersAgree t := by
  by_cases ht : t.seq = .haltedError
  case pos =>
    obtain ⟨hkind, -, -, -, -, hop, -, hinfo, -⟩ := errorsLeaveNoPartialEffect s t hq h ht
    refine ⟨iff_of_true ht hkind, fun hcarries => ?_, fun hcarries => ?_⟩
    · rw [hinfo, if_pos hcarries, hop]
    · rw [hinfo, if_neg hcarries]
  case neg =>
    obtain ⟨hiff, -, hzero⟩ := herr
    have hnone : s.errKind = .none := by
      by_contra hne
      nomatch hq.symm.trans (hiff.mpr hne)
    have hkept : t.errKind = s.errKind ∧ t.errOpcode = s.errOpcode := by
      cases stepEnd_of_step h with
      | held | endOfCode => exact ⟨rfl, rfl⟩
      | invalid => exact absurd rfl ht
      | stages row handler t hq hpc hrom hm hsame hend =>
        cases hend with
        | gasError | outOfGas | handlerError => exact absurd rfl ht
        | completed d t hgas hle hdone =>
          rw [(hm.handlerEnd hdone).frame]
          exact ⟨rfl, rfl⟩
    obtain ⟨hkind, hinfo⟩ := hkept
    rw [hnone] at hkind
    have hcode := hzero (by simp [hnone])
    exact ⟨iff_of_false ht (not_not.mpr hkind), by simp [hkind], fun _ => hinfo.trans hcode⟩

theorem step_digestAgrees {s t : State} (hdigest : DigestAgrees s) (h : step s = .next t) : DigestAgrees t := by
  by_cases hq : s.seq = .running
  case neg =>
    cases (step_of_not_running hq).symm.trans h
    exact hdigest
  case pos =>
    obtain hhalt | ⟨row, d, hdone⟩ := step_of_run_cases hq h
    · exact fun _ => hhalt.digest
    · intro ht
      obtain hs | hs := ht <;> nomatch hdone.still_running.symm.trans hs

/-- Settles O33: a block that is not running is left as it is, and a step of a run keeps each clause. -/
theorem stepKeepsInvariant : Obligations.StepKeepsInvariant := by
  unfold Obligations.StepKeepsInvariant
  intro s t hinv h
  by_cases hq : s.seq = .running
  case neg =>
    cases (step_of_not_running hq).symm.trans h
    exact hinv
  case pos =>
    obtain ⟨hcode, hlen, -, hparams, -⟩ := stepNeverWritesItsInputs s t h
    exact {
      params := hparams ▸ hinv.params
      codeRising := hcode ▸ hinv.codeRising
      codeLen := hparams ▸ hlen ▸ hinv.codeLen
      stack := step_stack_le hq hinv.stack h
      memory := step_memoryInBounds hq hinv.memory h
      registers := step_registersAgree hq hinv.registers h
      errors := step_errorsAgree hq hinv.errors h
      digest := step_digestAgrees hinv.digest h }

end Sys2Proof.Machine
end

section
/-! The host's actions (R188, R190, R200 to R204): what each does while a run is in progress and while none is, then the
obligations that are about one action (O7, O38, O39, O40, O43) and the invariant (O32, O34). -/

namespace Sys2Proof.Machine

/-! ### One equation per action -/

theorem hostAct_of_running {a : HostAct} {s : State} (hq : s.seq = .running) (ha : a ≠ .reset) :
    hostAct a s = .next s := by
  cases a with
  | reset => exact absurd rfl ha
  | loadCode | writeCodeLen | writeGasLimit | writeStart => exact if_pos hq

section NotRunning

variable {s : State} (hq : s.seq ≠ .running)
include hq

theorem hostAct_loadCode {addr : Nat} (byte : Byte) (h : s.params.admitsCodeLen (addr + 1) = true) :
    hostAct (.loadCode addr byte) s = .next { s with code := insertCell addr byte s.code } := by
  simp only [hostAct, if_neg hq, if_pos h]

theorem hostAct_writeCodeLen_too_long {n : Nat} (h : s.params.admitsCodeLen n = false) :
    hostAct (.writeCodeLen n) s = .refused .codeTooLong := by
  simp [hostAct, if_neg hq, h]

theorem hostAct_writeGasLimit (limit : Gas) :
    hostAct (.writeGasLimit limit) s = .next { s with gasLimit := limit } := if_neg hq

theorem hostAct_writeStart : hostAct (.writeStart true) s = .next (start s) := if_neg hq

end NotRunning

/-- Everything a host action with a meaning can do: nothing, where it is ignored or writes a 0 to `START`; a reset; or,
while no run is in progress, the write of one of the host's registers or a start. -/
theorem hostAct_cases {a : HostAct} {s t : State} (h : hostAct a s = .next t) :
    t = s ∨ (a = .reset ∧ t = hardReset s) ∨
    (s.seq ≠ .running ∧
      ((∃ addr byte, t = { s with code := insertCell addr byte s.code }) ∨
       (∃ n, s.params.admitsCodeLen n = true ∧ t = { s with codeLen := n }) ∨
       (∃ limit, t = { s with gasLimit := limit }) ∨
       (a = .writeStart true ∧ t = start s))) := by
  by_cases hq : s.seq = .running
  case pos =>
    by_cases ha : a = .reset
    · subst ha
      cases h
      exact .inr (.inl ⟨rfl, rfl⟩)
    · cases (hostAct_of_running hq ha).symm.trans h
      exact .inl rfl
  case neg =>
    cases a with
    | reset =>
      cases h
      exact .inr (.inl ⟨rfl, rfl⟩)
    | loadCode addr byte =>
      simp only [hostAct, if_neg hq] at h
      split at h
      · cases h
        exact .inr (.inr ⟨hq, .inl ⟨addr, byte, rfl⟩⟩)
      · nomatch h
    | writeCodeLen n =>
      simp only [hostAct, if_neg hq] at h
      split at h
      · next hn =>
        cases h
        exact .inr (.inr ⟨hq, .inr (.inl ⟨n, hn, rfl⟩)⟩)
      · nomatch h
    | writeGasLimit limit =>
      cases (hostAct_writeGasLimit hq limit).symm.trans h
      exact .inr (.inr ⟨hq, .inr (.inr (.inl ⟨limit, rfl⟩))⟩)
    | writeStart bit =>
      cases bit with
      | true =>
        cases (hostAct_writeStart hq).symm.trans h
        exact .inr (.inr ⟨hq, .inr (.inr (.inr ⟨rfl, rfl⟩))⟩)
      | false =>
        simp only [hostAct, if_neg hq] at h
        cases h
        exact .inl rfl

theorem readByte_of_no_words {s : State} (h : s.memWords = 0) (a : Nat) : readByte s a = none := by
  simp [readByte, memLen, h]

/-! ### The obligations about one action -/

/-- Settles O7: of the things a host action can do, only a reset and a start write the listed registers. -/
theorem notRunningHoldsRegisters : Obligations.NotRunningHoldsRegisters := by
  unfold Obligations.NotRunningHoldsRegisters
  intro s hq
  refine ⟨step_of_not_running hq, fun a t hreset hstart h => ?_⟩
  obtain rfl | ⟨rfl, -⟩ | ⟨-, ⟨addr, byte, rfl⟩ | ⟨n, -, rfl⟩ | ⟨limit, rfl⟩ | ⟨rfl, -⟩⟩ := hostAct_cases h
  · exact ⟨rfl, rfl, rfl, rfl, rfl, rfl, rfl, rfl, rfl, rfl, rfl, rfl⟩
  · exact absurd rfl hreset
  · exact ⟨rfl, rfl, rfl, rfl, rfl, rfl, rfl, rfl, rfl, rfl, rfl, rfl⟩
  · exact ⟨rfl, rfl, rfl, rfl, rfl, rfl, rfl, rfl, rfl, rfl, rfl, rfl⟩
  · exact ⟨rfl, rfl, rfl, rfl, rfl, rfl, rfl, rfl, rfl, rfl, rfl, rfl⟩
  · exact absurd rfl hstart

/-- Settles O38: the registers of `hardReset`, which has no memory words. -/
theorem resetSetsEveryRegister : Obligations.ResetSetsEveryRegister := by
  unfold Obligations.ResetSetsEveryRegister
  exact fun s => ⟨hardReset s, rfl, rfl, rfl, rfl, rfl, rfl, rfl, rfl, rfl, rfl, rfl, rfl, rfl, rfl, rfl,
    readByte_of_no_words rfl⟩

/-- Settles O39: the registers of `start`, which has no memory words. -/
theorem startBeginsAFreshRun : Obligations.StartBeginsAFreshRun := by
  unfold Obligations.StartBeginsAFreshRun
  exact fun s hq => ⟨start s, hostAct_writeStart hq, rfl, rfl, rfl, rfl, rfl, rfl, rfl, rfl, rfl, rfl, rfl, rfl, rfl,
    rfl, readByte_of_no_words rfl⟩

/-- Settles O40: every write is ignored while a run is in progress, and both read-out ports are closed. -/
theorem hostCannotTouchARun : Obligations.HostCannotTouchARun := by
  unfold Obligations.HostCannotTouchARun
  exact fun s hq => ⟨fun a => hostAct_of_running hq, fun i => if_pos hq, fun a => if_pos hq⟩

/-- Settles O43: the equation of the refused write. -/
theorem codeTooLongIsRefused : Obligations.CodeTooLongIsRefused := by
  unfold Obligations.CodeTooLongIsRefused
  exact fun s n hq => hostAct_writeCodeLen_too_long hq

/-! ### The invariant -/

theorem admitsCodeLen_mono {p : Params} {m n : Nat} (h : m ≤ n) (hn : p.admitsCodeLen n = true) :
    p.admitsCodeLen m = true := by
  unfold Params.admitsCodeLen at hn ⊢
  split
  · rfl
  · next hmax =>
    simp only [hmax] at hn
    exact decide_eq_true (h.trans (of_decide_eq_true hn))

theorem admitsCodeLen_zero (p : Params) : p.admitsCodeLen 0 = true := by
  unfold Params.admitsCodeLen
  split
  · rfl
  · exact decide_eq_true (Nat.zero_le _)

theorem memCost_zero : memCost 0 = 0 := rfl

/-- R40: what a reset leaves meets the invariant, whatever the parameters and the draw. -/
theorem inv_resetWith {p : Params} (hp : p.wellFormed = true) (draw : Nat) : Inv (State.resetWith p draw) where
  params := hp
  codeRising := .nil
  codeLen := admitsCodeLen_zero p
  stack := Nat.zero_le _
  memory := ⟨⟨.nil, nofun⟩, nofun, Nat.zero_le _⟩
  registers := nofun
  errors := ⟨⟨nofun, fun h => absurd rfl h⟩, fun h => by simp [State.resetWith] at h, fun _ => rfl⟩
  digest := fun h => by simp [Halted, State.resetWith] at h

/-- R202: a start begins a run whose registers agree, on the code and the limit the host left. -/
theorem inv_start {s : State} (hs : Inv s) : Inv (start s) where
  params := hs.params
  codeRising := hs.codeRising
  codeLen := hs.codeLen
  stack := Nat.zero_le _
  memory := ⟨⟨.nil, nofun⟩, nofun, Nat.zero_le _⟩
  registers := fun _ => ⟨Nat.zero_le _, Nat.zero_add _, memCost_zero.symm⟩
  errors := ⟨⟨nofun, fun h => absurd rfl h⟩, fun h => by simp [start] at h, fun _ => rfl⟩
  digest := fun h => by simp [Halted, start] at h

/-- Settles O32: the reset state is a reset with the reference parameters. -/
theorem resetMeetsInvariant : Obligations.ResetMeetsInvariant := by
  unfold Obligations.ResetMeetsInvariant
  exact inv_resetWith (by decide) 0

/-- Settles O34: a reset and a start meet the invariant, and the other writes each touch one clause, with no run in
progress to hold the run registers to. -/
theorem hostActionsKeepInvariant : Obligations.HostActionsKeepInvariant := by
  unfold Obligations.HostActionsKeepInvariant
  intro a s t hs h
  obtain rfl | ⟨-, rfl⟩ | ⟨hq, ⟨addr, byte, rfl⟩ | ⟨n, hn, rfl⟩ | ⟨limit, rfl⟩ | ⟨-, rfl⟩⟩ := hostAct_cases h
  · exact hs
  · exact inv_resetWith hs.params _
  · exact { hs with
      codeRising := rising_insertCell addr byte hs.codeRising
      registers := fun hrun => absurd hrun hq }
  · exact { hs with
      codeLen := hn
      registers := fun hrun => absurd hrun hq }
  · exact { hs with registers := fun hrun => absurd hrun hq }
  · exact inv_start hs

end Sys2Proof.Machine
end

section
/-! The launch of a program (R188, R202, R204) as one state, `launched`; what its code reads as; and the obligations
O41 and O42 about a launch and the run after it. -/

namespace Sys2Proof.Machine

/-! ### The launch -/

theorem hostActs_cons_of_next {a : HostAct} {s t : State} (rest : List HostAct) (h : hostAct a s = .next t) :
    hostActs (a :: rest) s = hostActs rest t := by
  simp only [hostActs, h]

/-- The load-port writes of a byte sequence, before whatever follows them, place it in the code space. -/
theorem hostActs_loadActs_append (bs : List Byte) (after : List HostAct) {addr : Nat} {s : State}
    (hq : s.seq ≠ .running) (hfits : s.params.admitsCodeLen (addr + bs.length) = true) :
    hostActs (loadActs addr bs ++ after) s = hostActs after { s with code := insertCells s.code addr bs } := by
  induction bs generalizing addr s with
  | nil => rfl
  | cons b rest ih =>
    rw [List.length_cons] at hfits
    have hbyte := hostAct_loadCode hq b (admitsCodeLen_mono (m := addr + 1) (by omega) hfits)
    have hrest := ih (addr := addr + 1) (s := { s with code := insertCell addr b s.code }) hq
      (by rwa [Nat.add_right_comm])
    exact (hostActs_cons_of_next _ hbyte).trans hrest

/-- The three register writes that begin a run of the code that is loaded. -/
theorem hostActs_configure_start {s : State} {n : Nat} (limit : Gas) (hq : s.seq ≠ .running)
    (hfits : s.params.admitsCodeLen n = true) :
    hostActs [.writeCodeLen n, .writeGasLimit limit, .writeStart true] s =
      .next (start { s with codeLen := n, gasLimit := limit }) := by
  simp only [hostActs, hostAct, if_neg hq, if_pos hfits, if_true]

/-- The state in which a launch of `bs` with the gas limit `limit` leaves the block. -/
def launched (bs : List Byte) (limit : Gas) (s : State) : State :=
  start { s with code := insertCells s.code 0 bs, codeLen := bs.length, gasLimit := limit }

theorem hostActs_launchActs {s : State} {bs : List Byte} (limit : Gas) (hq : s.seq ≠ .running)
    (hfits : s.params.admitsCodeLen bs.length = true) :
    hostActs (launchActs bs limit) s = .next (launched bs limit s) := by
  rw [launchActs, hostActs_loadActs_append bs _ hq (by rwa [Nat.zero_add])]
  exact hostActs_configure_start limit hq hfits

/-- What is listed at an address after a byte sequence is placed: the placed byte, or what was listed before. -/
theorem lookupCell_insertCells (bs : List Byte) (cells : List Host.Cell) (a x : Nat) :
    lookupCell (insertCells cells a bs) x =
      if a ≤ x ∧ x < a + bs.length then bs[x - a]? else lookupCell cells x := by
  induction bs generalizing cells a with
  | nil => simp [insertCells]
  | cons b rest ih =>
    rw [insertCells, ih, lookupCell_insertCell, List.length_cons]
    rcases Nat.lt_trichotomy x a with hlt | rfl | hgt
    · rw [if_neg (by omega), if_neg (by omega), if_neg (by omega)]
    · rw [if_neg (by omega), if_pos rfl, if_pos (by omega), Nat.sub_self, List.getElem?_cons_zero]
    · have hsub : x - a = x - (a + 1) + 1 := by omega
      have hrange : a + 1 ≤ x ∧ x < a + 1 + rest.length ↔ a ≤ x ∧ x < a + (rest.length + 1) := by omega
      rw [if_neg (by omega : x ≠ a), hsub, List.getElem?_cons_succ]
      simp only [hrange]

theorem codeAt_launched (limit : Gas) (s : State) {bs : List Byte} {k : Nat} (hk : k < bs.length) :
    codeAt (launched bs limit s) k = bs[k] := by
  have hlookup : lookupCell (launched bs limit s).code k = some bs[k] := by
    change lookupCell (insertCells s.code 0 bs) k = _
    rw [lookupCell_insertCells, if_pos (by omega), Nat.sub_zero, List.getElem?_eq_getElem hk]
  rw [codeAt, hlookup, Option.getD_some]

/-- Settles O41: the registers of `launched`, and what its code reads as. -/
theorem launchLoadsTheProgram : Obligations.LaunchLoadsTheProgram := by
  unfold Obligations.LaunchLoadsTheProgram
  exact fun s bs limit hq hfits => ⟨launched bs limit s, hostActs_launchActs limit hq hfits,
    rfl, rfl, rfl, rfl, rfl, rfl, rfl, rfl, fun k hk => codeAt_launched limit s hk⟩

/-! ### A whole run -/

/-- What every step keeps, every run keeps. -/
theorem runPasses_keeps {P : State → Prop} (hstep : ∀ s t, P s → step s = .next t → P t) {n : Nat} {s t : State}
    (hs : P s) (hrun : runPasses n s = .next t) : P t := by
  induction n generalizing s with
  | zero =>
    cases hrun
    exact hs
  | succ n ih =>
    obtain ⟨u, hu⟩ := everyStepAnswersNext s
    rw [runPasses_succ n hu] at hrun
    exact ih (hstep s u hs hu) hrun

/-- R189: the result of a halted run. -/
theorem result_of_halted {s : State} (hs : Halted s) :
    result s = some ⟨s.digestOut, s.gasConsumed, s.gasRemaining,
      if s.seq = .haltedError then some (s.errKind, s.errOpcode) else none⟩ := by
  obtain hs | hs := hs <;> simp [result, hs]

/-- Settles O42: the run of a launched program halts within its length plus one passes, with the digest of its memory
and its gas counters still summing to the limit. -/
theorem executeReturnsAResult : Obligations.ExecuteReturnsAResult := by
  unfold Obligations.ExecuteReturnsAResult
  intro s bs limit hq hfits
  obtain ⟨t, hrun, ht⟩ := run_halts (n := bs.length) (s := launched bs limit s) rfl le_rfl
  have hdigest : DigestAgrees t := by
    refine runPasses_keeps (fun _ _ => step_digestAgrees) (fun h => ?_) hrun
    simp [launched, start, Halted] at h
  obtain ⟨-, -, hsum⟩ := gasOnlyMovesToConsumed _ (launched bs limit s) t (Nat.zero_add limit.toNat) hrun
  refine ⟨t, _, ?_, ht, result_of_halted ht, hdigest ht, hsum, rfl⟩
  rw [execute, hostActs_launchActs limit hq hfits]
  exact hrun

end Sys2Proof.Machine
end

section
/-! SDIV (R135) and EXP (R136): the arithmetic of each is the mathematical function modulo 2^256, and with the outcomes
of an ALU instruction the obligations O19 and O20 follow. -/

namespace Sys2Proof.Machine

/-! ### Signed division -/

theorem signed_eq_toInt (w : Word) : signed w = w.toInt := by
  rw [signed, BitVec.toInt_eq_toNat_cond]
  split_ifs <;> omega

/-- Division that truncates toward zero divides the magnitudes, and is negative where the signs differ. -/
theorem tdiv_eq_magnitudes (a b : Int) :
    Int.tdiv a b =
      if (a < 0) ≠ (b < 0) then -((a.natAbs / b.natAbs : Nat) : Int) else ((a.natAbs / b.natAbs : Nat) : Int) := by
  cases a with
  | ofNat m =>
    cases b with
    | ofNat n => simp [Int.tdiv, (Int.natCast_nonneg _).not_gt]
    | negSucc n => simp [Int.tdiv]
  | negSucc m =>
    cases b with
    | ofNat n => simp [Int.tdiv]
    | negSucc n => simp [Int.tdiv]

/-- R135: the word of the truncated quotient, which is 0 for a zero divisor. -/
theorem sdivWords_eq_tdiv (a b : Word) : sdivWords a b = BitVec.ofInt 256 (Int.tdiv a.toInt b.toInt) := by
  rw [sdivWords, quotientMagnitude, signed_eq_toInt, signed_eq_toInt]
  split_ifs with hb hsigns
  · simp [hb]
  · rw [tdiv_eq_magnitudes, if_pos hsigns, u256]
  · rw [tdiv_eq_magnitudes, if_neg hsigns, u256]

/-! ### The power -/

/-- R136: repeated squaring computes the power, where there is one unit of fuel for each bit of the exponent. -/
theorem powMod_eq (fuel base e : Nat) (h : e < 2 ^ fuel) : powMod fuel base e = base ^ e % 2 ^ 256 := by
  induction fuel generalizing e with
  | zero =>
    obtain rfl : e = 0 := by omega
    rfl
  | succ fuel ih =>
    rw [powMod]
    split_ifs with hzero hodd
    · subst hzero
      rfl
    · have hsplit : base ^ e = base ^ (e / 2) * base ^ (e / 2) * base := by
        rw [← pow_add, ← pow_succ]
        congr 1
        omega
      rw [ih _ (by omega), hsplit]
      simp only [Nat.mod_mul_mod, Nat.mul_mod_mod]
    · have hsplit : base ^ e = base ^ (e / 2) * base ^ (e / 2) := by
        rw [← pow_add]
        congr 1
        omega
      rw [ih _ (by omega), hsplit]
      simp only [Nat.mod_mul_mod, Nat.mul_mod_mod]

theorem expWords_eq_pow (a b : Word) : expWords a b = BitVec.ofNat 256 (a.toNat ^ b.toNat % 2 ^ 256) := by
  rw [expWords, powMod_eq 256 _ _ b.isLt]

/-! ### The obligations -/

/-- Settles O19: the three ends of the stages at SDIV's ROM entry, whose word is the truncated quotient. -/
theorem sdivTruncatesTowardZero : Obligations.SdivTruncatesTowardZero := by
  unfold Obligations.SdivTruncatesTowardZero
  refine ⟨rfl, fun s => ?_⟩
  have hgas : dynamicGas romSdiv.dynamicGas (advance romSdiv s) = .ok ⟨0, s.memCostWm⟩ := rfl
  exact ⟨fun a b rest hs hle => sdivWords_eq_tdiv a b ▸ runStages_binop_of_cons hs hgas hle,
    runStages_of_out_of_gas hgas, fun hle hs => runStages_binop_of_short hs hgas hle⟩

/-- Settles O20: the ends of the stages at EXP's ROM entry, whose gas function answers only on two words, and whose
word is the power. -/
theorem expIsThePowerModulo : Obligations.ExpIsThePowerModulo := by
  unfold Obligations.ExpIsThePowerModulo
  refine ⟨rfl, fun s => ⟨fun hs => ?short, fun a b rest hs => ?_⟩⟩
  case short =>
    have hgas : dynamicGas romExp.dynamicGas (advance romExp s) = .error .stackUnderflow :=
      expGasCost_of_short (s := advance romExp s) hs
    exact runStages_of_gas_error hgas
  have hgas : dynamicGas romExp.dynamicGas (advance romExp s) = .ok ⟨50 * byteLength b, s.memCostWm⟩ :=
    expGasCost_of_cons (s := advance romExp s) hs
  exact ⟨fun hle => expWords_eq_pow a b ▸ runStages_binop_of_cons hs hgas hle, runStages_of_out_of_gas hgas⟩

end Sys2Proof.Machine
end

section
/-! The PUSH instructions (R150 to R154): the handler's equations, the four ends of the stages at a PUSH's ROM entry,
and what the immediate is as a sum over the code bytes; then the obligations O21 and O22. -/

namespace Sys2Proof.Machine

/-! ### The handler -/

section PushHandler

variable {imm : Word} {s : State}

theorem pushHandler_of_truncated (h : s.codeLen - s.pc < s.opcode.toNat - 0x5f) :
    pushHandler imm s = .error (.raised (.notEnoughBytesToRead s.opcode)) := if_pos h

theorem pushHandler_of_full (hbytes : s.opcode.toNat - 0x5f ≤ s.codeLen - s.pc)
    (hfull : Config.stackDepth ≤ s.stack.length) : pushHandler imm s = .error (.raised .stackOverflow) := by
  rw [pushHandler, if_neg (Nat.not_lt.mpr hbytes), push_of_full hfull]

theorem pushHandler_of_room (hbytes : s.opcode.toNat - 0x5f ≤ s.codeLen - s.pc)
    (hroom : s.stack.length < Config.stackDepth) :
    pushHandler imm s = .ok ((s.setStack (imm :: s.stack)).setPc (s.pc + (s.opcode.toNat - 0x5f))) := by
  rw [pushHandler, if_neg (Nat.not_lt.mpr hbytes), push_of_room hroom]

end PushHandler

/-! ### The stages -/

/-- A ROM entry of a PUSH with `n` immediate bytes. -/
structure PushRow (row : RomEntry) (n : Nat) : Prop where
  gas : row.dynamicGas = .none
  cost : row.constantGas = 3
  operand : row.opcode.toNat - 0x5f = n
  length : row.length - 1 = n
  short : n ≤ 32

theorem pushRow_push1 : PushRow romPush1 1 := ⟨rfl, rfl, rfl, rfl, by decide⟩
theorem pushRow_push2 : PushRow romPush2 2 := ⟨rfl, rfl, rfl, rfl, by decide⟩
theorem pushRow_push3 : PushRow romPush3 3 := ⟨rfl, rfl, rfl, rfl, by decide⟩
theorem pushRow_push32 : PushRow romPush32 32 := ⟨rfl, rfl, rfl, rfl, by decide⟩

namespace PushRow

variable {row : RomEntry} {n : Nat} (hrow : PushRow row n) (imm : Word) {s : State}
include hrow

theorem dynamicGas_eq (s : State) : dynamicGas row.dynamicGas (advance row s) = .ok ⟨0, s.memCostWm⟩ := by
  rw [hrow.gas]
  rfl

theorem runStages_of_charged (handler : State → Except Stop State) (h : 3 ≤ s.gasRemaining.toNat) :
    runStages row handler s = runHandler handler (spent row.opcode 3 s) := by
  have hle : row.constantGas + 0 ≤ s.gasRemaining.toNat := hrow.cost.symm ▸ h
  rw [runStages_of_covered (hrow.dynamicGas_eq s) hle, chargedState_eq_spent hle, hrow.cost]

theorem runStages_of_room (hgas : 3 ≤ s.gasRemaining.toNat) (hbytes : n ≤ s.codeLen - (s.pc + 1))
    (hroom : s.stack.length < 1024) :
    runStages row (pushHandler imm) s =
      .next { spent row.opcode 3 s with stack := imm :: s.stack, pc := s.pc + 1 + n } := by
  obtain rfl := hrow.operand
  have hdone : pushHandler imm (spent row.opcode 3 s) = _ := pushHandler_of_room hbytes hroom
  rw [runStages_of_charged hrow _ hgas, runHandler, hdone]
  rfl

theorem runStages_of_no_gas (hgas : s.gasRemaining.toNat < 3) :
    runStages row (pushHandler imm) s = .next (haltedWith .outOfGas 0 (latched row.opcode s)) :=
  runStages_of_out_of_gas (hrow.dynamicGas_eq s) (hrow.cost.symm ▸ hgas)

theorem runStages_of_truncated (hgas : 3 ≤ s.gasRemaining.toNat) (hbytes : s.codeLen - (s.pc + 1) < n) :
    runStages row (pushHandler imm) s =
      .next (haltedWith .notEnoughBytesToRead row.opcode (spent row.opcode 3 s)) := by
  obtain rfl := hrow.operand
  have hraise : pushHandler imm (spent row.opcode 3 s) = _ := pushHandler_of_truncated hbytes
  rw [runStages_of_charged hrow _ hgas, runHandler, hraise]
  rfl

theorem runStages_of_full (hgas : 3 ≤ s.gasRemaining.toNat) (hbytes : n ≤ s.codeLen - (s.pc + 1))
    (hfull : s.stack.length = 1024) :
    runStages row (pushHandler imm) s = .next (haltedWith .stackOverflow 0 (spent row.opcode 3 s)) := by
  obtain rfl := hrow.operand
  have hraise : pushHandler imm (spent row.opcode 3 s) = _ := pushHandler_of_full hbytes hfull.ge
  rw [runStages_of_charged hrow _ hgas, runHandler, hraise]
  rfl

end PushRow

/-- Settles O21: the four ends of the stages, at each PUSH's ROM entry. -/
theorem pushCompletesOrHalts : Obligations.PushCompletesOrHalts := by
  unfold Obligations.PushCompletesOrHalts
  intro imm s i op n hmem
  have hinstr : ∃ row, PushRow row n ∧ row.opcode = op ∧ exec i s = runStages row (pushHandler imm) s := by
    simp only [List.mem_cons, List.not_mem_nil, or_false, Prod.mk.injEq] at hmem
    obtain ⟨rfl, rfl, rfl⟩ | ⟨rfl, rfl, rfl⟩ | ⟨rfl, rfl, rfl⟩ | ⟨rfl, rfl, rfl⟩ := hmem
    · exact ⟨romPush1, pushRow_push1, rfl, rfl⟩
    · exact ⟨romPush2, pushRow_push2, rfl, rfl⟩
    · exact ⟨romPush3, pushRow_push3, rfl, rfl⟩
    · exact ⟨romPush32, pushRow_push32, rfl, rfl⟩
  obtain ⟨row, hrow, rfl, hexec⟩ := hinstr
  rw [hexec]
  exact ⟨hrow.runStages_of_room imm, hrow.runStages_of_no_gas imm, hrow.runStages_of_truncated imm,
    hrow.runStages_of_full imm⟩

/-! ### The immediate in the code -/

theorem natOfBytes_append (bs : List Byte) (b : Byte) :
    natOfBytes (bs ++ [b]) = natOfBytes bs * 256 + b.toNat := List.foldl_append

/-- R83: the number `n` bytes stand for, as a sum. -/
theorem natOfBytes_map_range (byteAt : Nat → Byte) (n : Nat) :
    natOfBytes ((List.range n).map byteAt) = ∑ k ∈ Finset.range n, (byteAt k).toNat * 256 ^ (n - 1 - k) := by
  induction n with
  | zero => rfl
  | succ n ih =>
    have hshift : ∀ k ∈ Finset.range n, (byteAt k).toNat * 256 ^ (n + 1 - 1 - k) =
        (byteAt k).toNat * 256 ^ (n - 1 - k) * 256 := fun k hk => by
      have hk := Finset.mem_range.mp hk
      rw [mul_assoc, ← pow_succ]
      congr 2
      omega
    rw [List.range_succ, List.map_append, List.map_singleton, natOfBytes_append, ih, Finset.sum_range_succ,
      Finset.sum_congr rfl hshift, Finset.sum_mul, Nat.add_sub_cancel, Nat.sub_self, pow_zero, mul_one]

/-- R82, R83: the word of the `n` code bytes after the opcode. -/
def codeImmediate (s : State) (n : Nat) : Word :=
  BitVec.ofNat 256 (∑ k ∈ Finset.range n, (codeAt s (s.pc + 1 + k)).toNat * 256 ^ (n - 1 - k))

/-- A step at a PUSH's opcode runs its stages, with the immediate the code holds where all its bytes are there. -/
theorem PushRow.step_eq {row : RomEntry} {n : Nat} (hrow : PushRow row n) {make : Word → Instr} {s : State}
    (hq : s.seq = .running) (hpc : s.pc < s.codeLen)
    (hdecode : ∀ bytes, decode (codeAt s s.pc :: bytes) = decodePush row make bytes)
    (hexec : ∀ imm, exec (make imm) s = runStages row (pushHandler imm) s) :
    ∃ imm, step s = runStages row (pushHandler imm) s ∧ (s.pc + 1 + n ≤ s.codeLen → imm = codeImmediate s n) := by
  have hlen := hrow.length
  have hshort := hrow.short
  have hwindow := fetchWindow_cons hpc
  generalize htail : min 33 (s.codeLen - s.pc) - 1 = tail at hwindow
  have hlength : ((List.range tail).map (fun k => codeAt s (s.pc + 1 + k))).length = tail := by simp
  rcases Nat.lt_or_ge s.codeLen (s.pc + 1 + n) with hfew | henough
  · have hd := decodePush_of_short (row := row) (make := make) (hlength.trans_lt (by omega))
    rw [← hdecode, ← hwindow] at hd
    exact ⟨0, step_of_decode_error hq hpc hd, fun h => absurd hfew (Nat.not_lt.mpr h)⟩
  · have hd := decodePush_of_enough (row := row) (make := make) ((by omega : _ ≤ tail).trans_eq hlength.symm)
      (hlen.symm ▸ hshort)
    rw [hlen, ← List.map_take, List.take_range, min_eq_left (by omega), natOfBytes_map_range, ← hdecode,
      ← hwindow] at hd
    exact ⟨codeImmediate s n, (step_of_decode_ok hq hpc hd).trans (hexec _), fun _ => rfl⟩

/-- Settles O22: the step runs the stages of O21, with the immediate summed from the code. -/
theorem pushReadsItsImmediateFromCode : Obligations.PushReadsItsImmediateFromCode := by
  unfold Obligations.PushReadsItsImmediateFromCode
  intro s op n hmem hq hpc hop
  have hinstr : ∃ row make, PushRow row n ∧ row.opcode = op ∧
      (∀ bytes, decode (op :: bytes) = decodePush row make bytes) ∧
      (∀ imm, exec (make imm) s = runStages row (pushHandler imm) s) := by
    simp only [List.mem_cons, List.not_mem_nil, or_false, Prod.mk.injEq] at hmem
    obtain ⟨rfl, rfl⟩ | ⟨rfl, rfl⟩ | ⟨rfl, rfl⟩ | ⟨rfl, rfl⟩ := hmem
    · exact ⟨romPush1, .push1, pushRow_push1, rfl, fun _ => rfl, fun _ => rfl⟩
    · exact ⟨romPush2, .push2, pushRow_push2, rfl, fun _ => rfl, fun _ => rfl⟩
    · exact ⟨romPush3, .push3, pushRow_push3, rfl, fun _ => rfl, fun _ => rfl⟩
    · exact ⟨romPush32, .push32, pushRow_push32, rfl, fun _ => rfl, fun _ => rfl⟩
  obtain ⟨row, make, hrow, rfl, hdecode, hexec⟩ := hinstr
  obtain ⟨imm, hstep, himm⟩ := hrow.step_eq hq hpc (by rwa [hop]) hexec
  rw [hstep]
  refine ⟨fun hgas hbytes hroom => ?_, fun hgas => ?_, fun hgas hbytes => ?_, fun hgas hbytes hfull => ?_⟩
  · cases himm hbytes
    exact hrow.runStages_of_room _ hgas (by omega) hroom
  · exact ⟨_, hrow.runStages_of_no_gas _ hgas,
      raised_raise_of_uncharged (t := latched row.opcode s) .outOfGas rfl rfl rfl⟩
  · exact ⟨_, hrow.runStages_of_truncated _ hgas (by omega),
      raised_raise_spent (.notEnoughBytesToRead _) _ _ s, rfl⟩
  · exact ⟨_, hrow.runStages_of_full _ hgas (by omega) hfull, raised_raise_spent .stackOverflow _ _ s⟩

end Sys2Proof.Machine
end

section
/-! The stores (R112, R160, R161): the equations of their gas function and handler, the five errors and the completed
store over both instructions (`StoreRow`), and the obligations O23 to O26. -/

namespace Sys2Proof.Machine

/-- Settles O23: the definition is a multiple of 32 within 31 of its argument. -/
theorem ceilIsTheLeastMultiple : Obligations.CeilIsTheLeastMultiple := by
  unfold Obligations.CeilIsTheLeastMultiple
  intro x
  refine ⟨Nat.mul_mod_left _ 32, le_ceil32 x, fun m hm hx => ?_⟩
  rw [ceil32]
  omega

/-! ### The gas function -/

section MemoryExpansionCost

variable {n : Nat} {s : State} {offset : Word} {rest : List Word}

theorem memoryExpansionCost_of_nil (h : s.stack = []) : memoryExpansionCost n s = .error .stackUnderflow := by
  rw [memoryExpansionCost, peek_of_length_le (by simp [h])]

theorem memoryExpansionCost_of_over (hs : s.stack = offset :: rest)
    (h : Config.memSizeThreshold < storeLen offset.toNat n) :
    memoryExpansionCost n s = .error .gasUintOverflow := by
  have hpeek : peek 0 s = .ok offset := by simp [peek, hs]
  rw [memoryExpansionCost, hpeek]
  exact if_pos h

/-- R112: within the threshold the gas function answers the cost and the watermark the spec states. -/
theorem memoryExpansionCost_of_within (hs : s.stack = offset :: rest)
    (h : storeLen offset.toNat n ≤ Config.memSizeThreshold) :
    memoryExpansionCost n s = .ok ⟨storeGas offset.toNat n s, storeWatermark offset.toNat n s⟩ := by
  have hpeek : peek 0 s = .ok offset := by simp [peek, hs]
  have hceil : ceil32 (offset.toNat + n) = storeLen offset.toNat n := rfl
  rw [memoryExpansionCost, hpeek]
  simp only [hceil, if_neg (Nat.not_lt.mpr h), storeGas, storeWatermark, memCost_eq_wordsCost]
  rcases Nat.lt_or_ge (memLen s) (storeLen offset.toNat n) with hgrows | hwithin
  · simp only [if_neg (Nat.not_le.mpr hgrows), if_pos hgrows]
  · simp only [if_pos hwithin, if_neg (Nat.not_lt.mpr hwithin)]

end MemoryExpansionCost

/-! ### The handler -/

theorem exists_memWrite {offset : Nat} {bs : List Byte} {s : State}
    (hcapacity : ceil32 (offset + bs.length) ≤ s.params.memBytesMax)
    (hthreshold : ceil32 (offset + bs.length) ≤ Config.memSizeThreshold) :
    ∃ t, memWrite offset bs s = .ok t := by
  cases hw : memWrite offset bs s with
  | ok t => exact ⟨t, rfl⟩
  | error e =>
    obtain ⟨hover, -⟩ | ⟨hbig, -⟩ := extend_error (memWrite_error hw)
    · exact absurd hcapacity (Nat.not_le.mpr hover)
    · simp only [Config.memSizeThreshold] at hthreshold
      omega

section StoreHandler

variable {bytesOf : Word → List Byte} {s : State} {offset value : Word} {rest : List Word}

theorem storeHandler_of_short (h : s.stack.length < 2) :
    storeHandler bytesOf s = .error (.raised .stackUnderflow) := by
  unfold storeHandler
  split
  · next hs => simp [hs] at h
  · rfl

theorem storeHandler_of_over_capacity (hs : s.stack = offset :: value :: rest)
    (h : s.params.memBytesMax < ceil32 (offset.toNat + (bytesOf value).length)) :
    storeHandler bytesOf s = .error (.raised .capacityExceeded) := by
  simp only [storeHandler, hs, if_pos h]

theorem storeHandler_of_within_capacity (hs : s.stack = offset :: value :: rest)
    (h : ceil32 (offset.toNat + (bytesOf value).length) ≤ s.params.memBytesMax) :
    storeHandler bytesOf s = memWrite offset.toNat (bytesOf value) (s.setStack rest) := by
  simp only [storeHandler, hs, if_neg (Nat.not_lt.mpr h)]

end StoreHandler

/-! ### The stages of a store -/

/-- A ROM entry of a store of `n` bytes, with the bytes of the value it stores. -/
structure StoreRow (row : RomEntry) (bytesOf : Word → List Byte) (n : Nat) : Prop where
  gas : row.dynamicGas = .memory n
  cost : row.constantGas = 3
  length : ∀ v, (bytesOf v).length = n

theorem storeRow_mstore : StoreRow romMstore wordBytes 32 := ⟨rfl, rfl, fun _ => by simp [wordBytes]⟩

theorem storeRow_mstore8 : StoreRow romMstore8 (fun v => [lowByte v]) 1 := ⟨rfl, rfl, fun _ => rfl⟩

/-- The state at the end of stage 4 of a store. -/
def storeCharged (op : Byte) (offset n : Nat) (s : State) : State :=
  { spent op (3 + storeGas offset n s) s with memCostWm := storeWatermark offset n s }

namespace StoreRow

variable {row : RomEntry} {bytesOf : Word → List Byte} {n : Nat} (hrow : StoreRow row bytesOf n) {s : State}
include hrow

theorem runStages_of_empty (handler : State → Except Stop State) (hs : s.stack = []) :
    runStages row handler s = .next (haltedWith .stackUnderflow 0 (latched row.opcode s)) := by
  refine runStages_of_gas_error (e := .stackUnderflow) ?_
  rw [hrow.gas]
  exact memoryExpansionCost_of_nil (s := advance row s) hs

section OffsetOnTop

variable {offset : Word} {below : List Word} (hs : s.stack = offset :: below)
include hs

theorem runStages_of_over (h : Config.memSizeThreshold < storeLen offset.toNat n) :
    runStages row (storeHandler bytesOf) s = .next (haltedWith .gasUintOverflow 0 (latched row.opcode s)) := by
  refine runStages_of_gas_error (e := .gasUintOverflow) ?_
  rw [hrow.gas]
  exact memoryExpansionCost_of_over (s := advance row s) hs h

variable (hwithin : storeLen offset.toNat n ≤ Config.memSizeThreshold)
include hwithin

theorem dynamicGas_eq : dynamicGas row.dynamicGas (advance row s) =
    .ok ⟨storeGas offset.toNat n s, storeWatermark offset.toNat n s⟩ := by
  rw [hrow.gas]
  exact memoryExpansionCost_of_within (s := advance row s) hs hwithin

theorem runStages_of_no_gas (h : s.gasRemaining.toNat < 3 + storeGas offset.toNat n s) :
    runStages row (storeHandler bytesOf) s = .next (haltedWith .outOfGas 0
      { latched row.opcode s with memCostWm := storeWatermark offset.toNat n s }) :=
  runStages_of_out_of_gas (hrow.dynamicGas_eq hs hwithin) (hrow.cost.symm ▸ h)

variable (hgas : 3 + storeGas offset.toNat n s ≤ s.gasRemaining.toNat)
include hgas

theorem runStages_of_charged : runStages row (storeHandler bytesOf) s =
    runHandler (storeHandler bytesOf) (storeCharged row.opcode offset.toNat n s) := by
  have hle : row.constantGas + storeGas offset.toNat n s ≤ s.gasRemaining.toNat := hrow.cost.symm ▸ hgas
  have hspent : chargedState row ⟨storeGas offset.toNat n s, storeWatermark offset.toNat n s⟩ s =
      storeCharged row.opcode offset.toNat n s := by
    rw [storeCharged, ← hrow.cost, ← chargedState_eq_spent hle]
    rfl
  rw [runStages_of_covered (hrow.dynamicGas_eq hs hwithin) hle, hspent]

theorem runStages_of_one_word (hbelow : below = []) : runStages row (storeHandler bytesOf) s =
    .next (haltedWith .stackUnderflow 0 (storeCharged row.opcode offset.toNat n s)) := by
  have hraise : storeHandler bytesOf (storeCharged row.opcode offset.toNat n s) = _ :=
    storeHandler_of_short (by change s.stack.length < 2; simp [hs, hbelow])
  rw [runStages_of_charged hrow hs hwithin hgas, runHandler, hraise]
  rfl

theorem runStages_of_over_capacity (hbelow : below ≠ []) (h : s.params.memBytesMax < storeLen offset.toNat n) :
    runStages row (storeHandler bytesOf) s =
      .next (haltedWith .capacityExceeded 0 (storeCharged row.opcode offset.toNat n s)) := by
  obtain ⟨value, rest, rfl⟩ := List.exists_cons_of_ne_nil hbelow
  have hraise : storeHandler bytesOf (storeCharged row.opcode offset.toNat n s) = _ :=
    storeHandler_of_over_capacity hs (by rw [hrow.length]; exact h)
  rw [runStages_of_charged hrow hs hwithin hgas, runHandler, hraise]
  rfl

end OffsetOnTop

/-- R160, R161, R54 to R57: a store that no check stops. -/
theorem runStages_completes {offset value : Word} {rest : List Word} (hs : s.stack = offset :: value :: rest)
    (hwithin : storeLen offset.toNat n ≤ Config.memSizeThreshold)
    (hcapacity : storeLen offset.toNat n ≤ s.params.memBytesMax)
    (hgas : 3 + storeGas offset.toNat n s ≤ s.gasRemaining.toNat) :
    ∃ t, runStages row (storeHandler bytesOf) s = .next t ∧
      t = { storeCharged row.opcode offset.toNat n s with
        stack := rest, memWords := storeWords offset.toNat n s, mem := t.mem } ∧
      ∀ x, readByte t x =
        if offset.toNat ≤ x ∧ x < offset.toNat + n then some ((bytesOf value).getD (x - offset.toNat) 0)
        else if x < memLen s then readByte s x
        else if x < storeLen offset.toNat n then some 0 else none := by
  have hlen := hrow.length value
  have hdone : storeHandler bytesOf (storeCharged row.opcode offset.toNat n s) = _ :=
    storeHandler_of_within_capacity hs (by rw [hlen]; exact hcapacity)
  obtain ⟨t, ht⟩ := exists_memWrite (offset := offset.toNat) (bs := bytesOf value)
    (s := (storeCharged row.opcode offset.toNat n s).setStack rest) (by rw [hlen]; exact hcapacity)
    (by rw [hlen]; exact hwithin)
  rw [runStages_of_charged hrow hs hwithin hgas, runHandler, hdone, ht]
  have hgrown := memLen_memWrite ht
  have hread := readByte_memWrite ht
  rw [hlen] at hgrown hread
  change memLen t = max (memLen s) (storeLen offset.toNat n) at hgrown
  refine ⟨t, rfl, ?frame, fun x => ?reads⟩
  case frame =>
    have hwords : t.memWords = storeWords offset.toNat n s := by
      rw [memLen, memLen] at hgrown
      simp only [Config.memSizeThreshold] at hwithin
      apply BitVec.eq_of_toNat_eq
      rw [storeWords, memLen]
      split_ifs with hgrows
      · rw [BitVec.toNat_ofNat]
        omega
      · omega
    rw [← hwords, memWrite_frame ht]
    rfl
  case reads =>
    refine (hread x).trans ?_
    change (if _ then _ else if x < memLen s then readByte s x else if x < memLen t then some 0 else none) = _
    by_cases hold : x < memLen s
    · simp only [if_pos hold]
    · have hnew : x < memLen t ↔ x < storeLen offset.toNat n := by omega
      simp only [if_neg hold, hnew]

end StoreRow

/-! ### The obligations -/

theorem storeLen_le_threshold_iff (offset n : Nat) :
    storeLen offset n ≤ Config.memSizeThreshold ↔ offset + n ≤ 0x1FFFFFFFE0 := by
  simp only [storeLen, Config.memSizeThreshold]
  omega

/-- Settles O26: the five errors of a store, at each of the two ROM entries. -/
theorem storeErrorsInOrder : Obligations.StoreErrorsInOrder := by
  unfold Obligations.StoreErrorsInOrder
  intro s i op n limit hmem
  have hinstr : ∃ row bytesOf, StoreRow row bytesOf n ∧ row.opcode = op ∧ limit + n = 0x1FFFFFFFE0 ∧
      exec i s = runStages row (storeHandler bytesOf) s := by
    simp only [List.mem_cons, List.not_mem_nil, or_false, Prod.mk.injEq] at hmem
    obtain ⟨rfl, rfl, rfl, rfl⟩ | ⟨rfl, rfl, rfl, rfl⟩ := hmem
    · exact ⟨romMstore, _, storeRow_mstore, rfl, rfl, rfl⟩
    · exact ⟨romMstore8, _, storeRow_mstore8, rfl, rfl, rfl⟩
  obtain ⟨row, bytesOf, hrow, rfl, hlimit, hexec⟩ := hinstr
  rw [hexec]
  refine ⟨hrow.runStages_of_empty _, fun a rest hs => ?_⟩
  have hwithin : storeLen a.toNat n ≤ Config.memSizeThreshold ↔ a.toNat ≤ limit := by
    rw [storeLen_le_threshold_iff]
    omega
  refine ⟨fun hover => ?_, fun hle => ?_, fun hle hgas => ⟨fun hrest => ?_, fun hrest => ?_⟩⟩
  · exact hrow.runStages_of_over hs (Nat.not_le.mp (mt hwithin.mp (Nat.not_le.mpr hover)))
  · exact hrow.runStages_of_no_gas hs (hwithin.mpr hle)
  · exact hrow.runStages_of_one_word hs (hwithin.mpr hle) hgas hrest
  · exact hrow.runStages_of_over_capacity hs (hwithin.mpr hle) hgas hrest

theorem getD_wordBytes (v : Word) {k : Nat} (hk : k < 32) :
    (wordBytes v).getD k 0 = BitVec.ofNat 8 (v.toNat / 256 ^ (31 - k)) := by
  simp [wordBytes, wordByte, hk]

/-- Settles O24: the completed store of the 32 bytes of the word. -/
theorem mstoreStoresTheWord : Obligations.MstoreStoresTheWord := by
  unfold Obligations.MstoreStoresTheWord
  refine ⟨rfl, fun s a v rest hs ha hcapacity hgas => ?_⟩
  have hwithin := (storeLen_le_threshold_iff a.toNat 32).mpr (by omega)
  obtain ⟨t, ht, hframe, hread⟩ := storeRow_mstore.runStages_completes hs hwithin hcapacity hgas
  refine ⟨t, ht, hframe, fun k hk => ?_, fun x hx => ?_⟩
  · rw [hread, if_pos (by omega), Nat.add_sub_cancel_left, getD_wordBytes v hk]
  · rw [hread, if_neg (by omega)]

theorem lowByte_eq_mod (v : Word) : lowByte v = BitVec.ofNat 8 (v.toNat % 256) :=
  BitVec.eq_of_toNat_eq (by simp [lowByte])

/-- Settles O25: the completed store of the low byte of the word. -/
theorem mstore8StoresTheLowByte : Obligations.Mstore8StoresTheLowByte := by
  unfold Obligations.Mstore8StoresTheLowByte
  refine ⟨rfl, fun s a v rest hs ha hcapacity hgas => ?_⟩
  have hwithin := (storeLen_le_threshold_iff a.toNat 1).mpr (by omega)
  obtain ⟨t, ht, hframe, hread⟩ := storeRow_mstore8.runStages_completes hs hwithin hcapacity hgas
  refine ⟨t, ht, hframe, ?_, fun x hx => ?_⟩
  · rw [hread, if_pos (by omega), Nat.sub_self, List.getD_cons_zero, lowByte_eq_mod]
  · rw [hread, if_neg (by omega)]

end Sys2Proof.Machine
end

section
/-! What a step does not read. A relation between states that agree on everything but the memory bytes, the digest and
the remaining gas (`Unread`) carries over a step; with it the obligations O15 and O28. First O31: when the limit checker
raises. -/

namespace Sys2Proof.Machine

/-- Settles O31: of the four ends of the stages only the limit checker's records OutOfGas, and it is met exactly where
the cost exceeds the remaining gas. -/
theorem outOfGasExactlyWhenCostExceeds : Obligations.OutOfGasExactlyWhenCostExceeds := by
  unfold Obligations.OutOfGasExactlyWhenCostExceeds
  intro i s t hnone h
  obtain ⟨handler, hm, hexec⟩ := exec_meaning i
  have hcovered : ∀ {d}, dynamicGas (romOf i).dynamicGas (advance (romOf i) s) = .ok d →
      (romOf i).constantGas + d.cost ≤ s.gasRemaining.toNat →
      ¬ ∃ d, dynamicGas (romOf i).dynamicGas (advance (romOf i) s) = .ok d ∧
        s.gasRemaining.toNat < (romOf i).constantGas + d.cost := by
    rintro d hgas hle ⟨d', hgas', hlt⟩
    cases hgas.symm.trans hgas'
    exact absurd hle (Nat.not_le.mpr hlt)
  cases runStages_eq_next_iff.mp ((hexec s).symm.trans h) with
  | gasError e hgas =>
    have hkind : (raise e (advance (romOf i) s)).errKind ≠ .outOfGas := by
      obtain rfl | rfl := dynamicGas_error hgas <;> nofun
    exact ⟨iff_of_false hkind (fun ⟨d, hd, _⟩ => nomatch hgas.symm.trans hd), fun hk => absurd hk hkind⟩
  | outOfGas d hgas hlt => exact ⟨iff_of_true rfl ⟨d, hgas, hlt⟩, fun _ => ⟨rfl, rfl, rfl⟩⟩
  | handlerError d e hgas hle hraise =>
    have hkind : (raise e (chargedState (romOf i) d s)).errKind ≠ .outOfGas := by
      obtain rfl | rfl | rfl | rfl := hm.error_cases hraise <;> nofun
    exact ⟨iff_of_false hkind (hcovered hgas hle), fun hk => absurd hk hkind⟩
  | completed d t hgas hle hdone =>
    have hkind : t.errKind ≠ .outOfGas := by
      rw [(hm.handlerEnd hdone).frame]
      change s.errKind ≠ _
      rw [hnone]
      nofun
    exact ⟨iff_of_false hkind (hcovered hgas hle), fun hk => absurd hk hkind⟩

/-! ### Relations that carry over a step -/

/-- Related states differ in the memory bytes, the digest and the remaining gas only; and they stay related when both
are written alike, when both take the same error, end alike, and are charged alike. -/
structure Unread (R : State → State → Prop) : Prop where
  frame : ∀ {s s'}, R s s' → ∃ cells d g, s' = { s with mem := cells, digestOut := d, gasRemaining := g }
  stage : ∀ {s s'} (op : Byte) (pc : Nat) (wm : BitVec 64), R s s' →
    R { s with opcode := op, pc := pc, memCostWm := wm } { s' with opcode := op, pc := pc, memCostWm := wm }
  handler : ∀ {s s'} (stack : List Word) (pc : Nat) (words : BitVec 32) (f : List Host.Cell → List Host.Cell),
    R s s' → R { s with stack := stack, pc := pc, memWords := words, mem := f s.mem }
      { s' with stack := stack, pc := pc, memWords := words, mem := f s'.mem }
  halt : ∀ {s s'} (q : Seq) (kind : ErrKind) (info : Byte), R s s' →
    R (finalize (s.setSeq q kind info)) (finalize (s'.setSeq q kind info))
  charge : ∀ {s s'} {cost : Nat} {consumed : Gas}, R s s' → cost ≤ s.gasRemaining.toNat →
    cost ≤ s'.gasRemaining.toNat ∧ R (s.setGas (s.gasRemaining - BitVec.ofNat 64 cost) consumed)
      (s'.setGas (s'.gasRemaining - BitVec.ofNat 64 cost) consumed)

/-- What a handler answers for two related states: the same stop, or related states. -/
inductive RelatedAnswers (R : State → State → Prop) : Except Stop State → Except Stop State → Prop where
  | stop (e : Stop) : RelatedAnswers R (.error e) (.error e)
  | done {t t' : State} (h : R t t') : RelatedAnswers R (.ok t) (.ok t')

namespace Unread

variable {R : State → State → Prop} (hR : Unread R) {s s' : State} (h : R s s')
include hR h

theorem dynamicGas_eq (g : DynamicGas) : dynamicGas g s' = dynamicGas g s := by
  obtain ⟨cells, digest, gas, rfl⟩ := hR.frame h
  cases g <;> rfl

theorem sameFetch : SameFetch s s' := by
  obtain ⟨cells, digest, gas, rfl⟩ := hR.frame h
  exact ⟨rfl, rfl, rfl, rfl, rfl⟩

theorem binop_related (f : Word → Word → Word) : RelatedAnswers R (binop f s) (binop f s') := by
  have hwrite := fun st => hR.handler st s.pc s.memWords id h
  obtain ⟨cells, digest, gas, rfl⟩ := hR.frame h
  rcases hs : s.stack with _ | ⟨a, _ | ⟨b, rest⟩⟩
  · simp only [binop, hs]
    exact .stop _
  · simp only [binop, hs]
    exact .stop _
  · simp only [binop, hs]
    exact .done (hwrite _)

theorem pushHandler_related (imm : Word) : RelatedAnswers R (pushHandler imm s) (pushHandler imm s') := by
  have hwrite := fun st pc => hR.handler st pc s.memWords id h
  obtain ⟨cells, digest, gas, rfl⟩ := hR.frame h
  rw [pushHandler, pushHandler, push, push]
  dsimp only
  split_ifs
  · exact .stop _
  · exact .stop _
  · exact .done (hwrite _ _)

theorem memWrite_related (offset : Nat) (bs : List Byte) :
    RelatedAnswers R (memWrite offset bs s) (memWrite offset bs s') := by
  have hwrite := fun words f => hR.handler s.stack s.pc words f h
  obtain ⟨cells, digest, gas, rfl⟩ := hR.frame h
  rw [memWrite, memWrite, extend, extend, memLen, memLen]
  dsimp only
  split_ifs
  · exact .done (hwrite _ (fun cs => writeCells cs offset bs))
  · exact .stop _
  · exact .stop _
  · exact .done (hwrite _ (fun cs => writeCells (cs.filter fun c => c.1 < memLen s) offset bs))

theorem storeHandler_related (bytesOf : Word → List Byte) :
    RelatedAnswers R (storeHandler bytesOf s) (storeHandler bytesOf s') := by
  have hpop := fun st => memWrite_related hR (hR.handler st s.pc s.memWords id h)
  obtain ⟨cells, digest, gas, rfl⟩ := hR.frame h
  rcases hs : s.stack with _ | ⟨offset, _ | ⟨value, rest⟩⟩
  · simp only [storeHandler, hs]
    exact .stop _
  · simp only [storeHandler, hs]
    exact .stop _
  · simp only [storeHandler, hs]
    split_ifs
    · exact .stop _
    · exact hpop _ _ _

theorem handler_related {row : RomEntry} {handler : State → Except Stop State} (hm : MeaningOf row handler) :
    RelatedAnswers R (handler s) (handler s') := by
  cases hm with
  | alu row f => exact binop_related hR h f
  | push row imm => exact pushHandler_related hR h imm
  | store32 => exact storeHandler_related hR h _
  | store1 => exact storeHandler_related hR h _

theorem advance_related (row : RomEntry) : R (advance row s) (advance row s') := by
  have hwrite := hR.stage row.opcode (s.pc + 1) s.memCostWm h
  obtain ⟨cells, digest, gas, rfl⟩ := hR.frame h
  exact hwrite

theorem setWatermark_related (row : RomEntry) (wm : BitVec 64) :
    R ((advance row s).setWatermark wm) ((advance row s').setWatermark wm) := by
  have hwrite := hR.stage row.opcode (s.pc + 1) wm h
  obtain ⟨cells, digest, gas, rfl⟩ := hR.frame h
  exact hwrite

theorem chargedState_related {row : RomEntry} {d : DynGas} (hle : row.constantGas + d.cost ≤ s.gasRemaining.toNat) :
    row.constantGas + d.cost ≤ s'.gasRemaining.toNat ∧ R (chargedState row d s) (chargedState row d s') := by
  have hcharge := hR.charge (consumed := s.gasConsumed + BitVec.ofNat 64 (row.constantGas + d.cost))
    (setWatermark_related hR h row d.watermark) hle
  obtain ⟨cells, digest, gas, rfl⟩ := hR.frame h
  exact hcharge

/-- The stages end alike from related states, unless the one with other gas raises OutOfGas. -/
theorem stagesEnd_related {row : RomEntry} {handler : State → Except Stop State} {t : State}
    (hm : MeaningOf row handler) (hend : StagesEnd row handler s t)
    (hout : t.errKind = .outOfGas → s'.gasRemaining = s.gasRemaining) :
    ∃ t', StagesEnd row handler s' t' ∧ R t t' := by
  have hgasEq := dynamicGas_eq hR (advance_related hR h row) row.dynamicGas
  cases hend with
  | gasError e hgas => exact ⟨_, .gasError e (hgasEq.trans hgas), hR.halt _ _ _ (advance_related hR h row)⟩
  | outOfGas d hgas hlt =>
    rw [← hout rfl] at hlt
    exact ⟨_, .outOfGas d (hgasEq.trans hgas) hlt, hR.halt _ _ _ (setWatermark_related hR h row d.watermark)⟩
  | handlerError d e hgas hle hraise =>
    obtain ⟨hle', hcharged⟩ := chargedState_related hR h hle
    have hanswer := handler_related hR hcharged hm
    rw [hraise] at hanswer
    generalize hraise' : handler (chargedState row d s') = answer at hanswer
    cases hanswer
    exact ⟨_, .handlerError d e (hgasEq.trans hgas) hle' hraise', hR.halt _ _ _ hcharged⟩
  | completed d t hgas hle hdone =>
    obtain ⟨hle', hcharged⟩ := chargedState_related hR h hle
    have hanswer := handler_related hR hcharged hm
    rw [hdone] at hanswer
    generalize hdone' : handler (chargedState row d s') = answer at hanswer
    cases hanswer with
    | done ht => exact ⟨_, .completed d _ (hgasEq.trans hgas) hle' hdone', ht⟩

/-- So does the step. -/
theorem step_related {t : State} (hstep : step s = .next t)
    (hout : t.errKind = .outOfGas → s'.gasRemaining = s.gasRemaining) : ∃ t', step s' = .next t' ∧ R t t' := by
  have hfetch := sameFetch hR h
  have hbyte : codeAt s' s'.pc = codeAt s s.pc := by rw [hfetch.pc, hfetch.codeAt_eq]
  cases stepEnd_of_step hstep with
  | held hq => exact ⟨s', step_of_not_running (hfetch.seq.symm ▸ hq), h⟩
  | endOfCode hq hpc =>
    have hkind := hR.halt .haltedSuccess s.errKind s.errOpcode h
    refine ⟨_, step_at_end_of_code (hfetch.seq.trans hq) (by rwa [hfetch.codeLen, hfetch.pc]), ?_⟩
    obtain ⟨cells, digest, gas, rfl⟩ := hR.frame h
    exact hkind
  | invalid hq hpc hrom =>
    have hlatched := hR.stage (codeAt s s.pc) s.pc s.memCostWm h
    refine ⟨_, step_of_invalid (hfetch.seq.trans hq) (by rwa [hfetch.codeLen, hfetch.pc]) (by rwa [hbyte]), ?_⟩
    rw [hbyte]
    obtain ⟨cells, digest, gas, rfl⟩ := hR.frame h
    exact hR.halt _ _ _ hlatched
  | stages row handler t hq hpc hrom hm hsame hend =>
    obtain ⟨t', hend', ht⟩ := stagesEnd_related hR h hm hend hout
    exact ⟨t', (hsame s' hfetch).trans (runStages_eq_next_iff.mpr hend'), ht⟩

end Unread

/-! ### The two relations -/

/-- Other memory bytes and another digest. -/
def OtherMemoryBytes (s s' : State) : Prop := ∃ cells d, s' = { s with mem := cells, digestOut := d }

theorem unread_otherMemoryBytes : Unread OtherMemoryBytes where
  frame := by
    rintro s s' ⟨cells, d, rfl⟩
    exact ⟨cells, d, s.gasRemaining, rfl⟩
  stage := by
    rintro s s' op pc wm ⟨cells, d, rfl⟩
    exact ⟨cells, d, rfl⟩
  handler := by
    rintro s s' stack pc words f ⟨cells, d, rfl⟩
    exact ⟨f cells, d, rfl⟩
  halt := by
    rintro s s' q kind info ⟨cells, d, rfl⟩
    exact ⟨cells, _, rfl⟩
  charge := by
    rintro s s' cost consumed ⟨cells, d, rfl⟩ hle
    exact ⟨hle, cells, d, rfl⟩

/-- Settles O28: other memory bytes and another digest carry over a step. -/
theorem memoryBytesInfluenceNothing : Obligations.MemoryBytesInfluenceNothing := by
  unfold Obligations.MemoryBytesInfluenceNothing
  intro s t cells d hstep
  have hrelated : OtherMemoryBytes s { s with mem := cells, digestOut := d } := ⟨cells, d, rfl⟩
  obtain ⟨t', hstep', cells', d', rfl⟩ := unread_otherMemoryBytes.step_related hrelated hstep fun _ => rfl
  exact ⟨cells', d', hstep'⟩

/-- `k` more remaining gas, which the register has room for. -/
def MoreGas (k : Nat) (s s' : State) : Prop :=
  s.gasRemaining.toNat + k < 2 ^ 64 ∧
    s' = { s with gasRemaining := BitVec.ofNat 64 (s.gasRemaining.toNat + k) }

theorem unread_moreGas (k : Nat) : Unread (MoreGas k) where
  frame := by
    rintro s s' ⟨-, rfl⟩
    exact ⟨s.mem, s.digestOut, _, rfl⟩
  stage := by
    rintro s s' op pc wm ⟨hk, rfl⟩
    exact ⟨hk, rfl⟩
  handler := by
    rintro s s' stack pc words f ⟨hk, rfl⟩
    exact ⟨hk, rfl⟩
  halt := by
    rintro s s' q kind info ⟨hk, rfl⟩
    exact ⟨hk, rfl⟩
  charge := by
    rintro s s' cost consumed ⟨hk, rfl⟩ hle
    have hmore : (BitVec.ofNat 64 (s.gasRemaining.toNat + k)).toNat = s.gasRemaining.toNat + k := by
      rw [BitVec.toNat_ofNat, Nat.mod_eq_of_lt hk]
    have hle' : cost ≤ (BitVec.ofNat 64 (s.gasRemaining.toNat + k)).toNat := by omega
    have hleft : (s.gasRemaining - BitVec.ofNat 64 cost).toNat + k < 2 ^ 64 := by
      rw [toNat_sub_charge hle]
      omega
    have hsub : BitVec.ofNat 64 (s.gasRemaining.toNat + k) - BitVec.ofNat 64 cost =
        BitVec.ofNat 64 ((s.gasRemaining - BitVec.ofNat 64 cost).toNat + k) := by
      apply BitVec.eq_of_toNat_eq
      rw [toNat_sub_charge hle', hmore, BitVec.toNat_ofNat, Nat.mod_eq_of_lt hleft, toNat_sub_charge hle]
      omega
    exact ⟨hle', hleft, by rw [hsub]; rfl⟩

/-- Settles O15: more gas carries over every step that does not run out of it. -/
theorem extraGasChangesNothingElse : Obligations.ExtraGasChangesNothingElse := by
  unfold Obligations.ExtraGasChangesNothingElse
  intro s t k hk hstep hkind
  obtain ⟨t', hstep', -, rfl⟩ :=
    (unread_moreGas k).step_related ⟨hk, rfl⟩ hstep fun hout => absurd hout hkind
  exact hstep'

end Sys2Proof.Machine
end

section
/-! The first step after a launch with the gas limit 0 (R104, R182, R204; log entry 24): the obligation O44. -/

namespace Sys2Proof.Machine

theorem MeaningOf.constantGas_pos {row : RomEntry} {handler : State → Except Stop State}
    (hm : MeaningOf row handler) : 0 < row.constantGas := by
  have halu : ∀ row ∈ [romAdd, romMul, romSdiv, romExp], 0 < row.constantGas := by decide
  have hpush : ∀ row ∈ [romPush1, romPush2, romPush3, romPush32], 0 < row.constantGas := by decide
  cases hm with
  | alu row f hrow => exact halu row hrow
  | push row imm hrow => exact hpush row hrow
  | store32 | store1 => decide

/-- R84: the three instructions whose gas function reads the stack. -/
theorem MeaningOf.dynamicGas_eq_none_iff {row : RomEntry} {handler : State → Except Stop State}
    (hm : MeaningOf row handler) :
    row.dynamicGas = .none ↔ ¬ (row.opcode = 0x0a ∨ row.opcode = 0x52 ∨ row.opcode = 0x53) := by
  have halu : ∀ row ∈ [romAdd, romMul, romSdiv, romExp],
      row.dynamicGas = .none ↔ ¬ (row.opcode = 0x0a ∨ row.opcode = 0x52 ∨ row.opcode = 0x53) := by decide
  have hpush : ∀ row ∈ [romPush1, romPush2, romPush3, romPush32],
      row.dynamicGas = .none ↔ ¬ (row.opcode = 0x0a ∨ row.opcode = 0x52 ∨ row.opcode = 0x53) := by decide
  cases hm with
  | alu row f hrow => exact halu row hrow
  | push row imm hrow => exact hpush row hrow
  | store32 | store1 => decide

/-- R104, R182: with no gas and an empty stack, an instruction whose gas function reads the stack raises there, and
every other one at the charge. -/
theorem MeaningOf.runStages_without_gas {row : RomEntry} {handler : State → Except Stop State}
    (hm : MeaningOf row handler) {s : State} (hgas : s.gasRemaining = 0) (hstack : s.stack = []) :
    runStages row handler s =
      .next (raise (if row.dynamicGas = .none then .outOfGas else .stackUnderflow) (advance row s)) := by
  cases hd : row.dynamicGas with
  | none =>
    have hcost : s.gasRemaining.toNat < row.constantGas + 0 := by
      rw [hgas]
      exact hm.constantGas_pos
    have hok : dynamicGas row.dynamicGas (advance row s) = .ok ⟨0, s.memCostWm⟩ := by
      rw [hd]
      rfl
    exact runStages_of_out_of_gas hok hcost
  | exp =>
    have herror : dynamicGas row.dynamicGas (advance row s) = .error .stackUnderflow := by
      rw [hd]
      exact expGasCost_of_short (s := advance row s) (by rw [advance_eq, hstack]; decide)
    exact runStages_of_gas_error herror
  | memory n =>
    have herror : dynamicGas row.dynamicGas (advance row s) = .error .stackUnderflow := by
      rw [hd]
      exact memoryExpansionCost_of_nil (s := advance row s) hstack
    exact runStages_of_gas_error herror

/-- Settles O44: the empty program is at the end of its code; any other has its first byte fetched, and then either no
ROM entry or the stages without gas. -/
theorem zeroGasLimitRunsNoInstruction : Obligations.ZeroGasLimitRunsNoInstruction := by
  unfold Obligations.ZeroGasLimitRunsNoInstruction
  intro s bs hq hfits
  have hlaunch := hostActs_launchActs 0 hq hfits
  cases bs with
  | nil =>
    exact ⟨_, _, hlaunch, step_at_end_of_code rfl le_rfl, rfl, rfl, rfl, rfl, fun _ => ⟨rfl, rfl⟩, nofun⟩
  | cons op rest =>
    have hpc : (launched (op :: rest) 0 s).pc < (launched (op :: rest) 0 s).codeLen := Nat.zero_lt_succ _
    have hbyte : codeAt (launched (op :: rest) 0 s) (launched (op :: rest) 0 s).pc = op :=
      codeAt_launched 0 s (Nat.zero_lt_succ _)
    cases hrom : rom op with
    | none =>
      have hstep := step_of_invalid rfl hpc (by rwa [hbyte])
      refine ⟨_, _, hlaunch, hstep, rfl, rfl, rfl, rfl, nofun, fun op' rest' h => ?_⟩
      cases h
      exact ⟨rfl, by rw [if_pos hrom]; rfl⟩
    | some row =>
      obtain ⟨handler, hm, hsame⟩ := step_of_rom rfl hpc (by rwa [hbyte])
      have hstep := (hsame _ (.refl _)).trans (hm.runStages_without_gas rfl rfl)
      refine ⟨_, _, hlaunch, hstep, rfl, rfl, rfl, rfl, nofun, fun op' rest' h => ?_⟩
      cases h
      refine ⟨rfl, ?_⟩
      have hnone := hm.dynamicGas_eq_none_iff
      rw [rom_opcode hrom] at hnone
      have hvalid : rom op ≠ none := by simp [hrom]
      rw [if_neg hvalid]
      by_cases hstack : op = 0x0a ∨ op = 0x52 ∨ op = 0x53
      · rw [if_pos hstack, if_neg (fun h => hnone.mp h hstack)]
        rfl
      · rw [if_neg hstack, if_pos (hnone.mpr hstack)]
        rfl

end Sys2Proof.Machine
end
